-- ==== Sys2Proof/Word.lean ====
section
/-! DEFINITION. The word types of the bip39-dice CORE. Every host-visible register is 32 bits wide (R20), a
dice character is 8 bits (R11 `CHAR_BITS`), the register port takes a 10-bit byte address (R60), and a
WordIndex is 11 bits (R8 `WORD_BITS`). Every value is unsigned and bit 0 is the least significant (R12). -/

namespace Sys2Proof

/-- A host-visible register, an operand word or a command word: `XLEN` = 32 bits (R11). -/
abbrev Word := BitVec 32

/-- A dice character, a byte of the entropy block or of the digest: 8 bits (R11, R13). -/
abbrev Byte := BitVec 8

/-- A byte address of the 1024-byte register space, relative to `BASE`: `ADDR_BITS` = 10 bits (R11, R60). -/
abbrev PortAddr := BitVec 10

/-- A WordIndex, "integer in [0, 2047], exactly 11 bits" (R16). -/
abbrev WordIndex := BitVec 11

end Sys2Proof
end

