-- ==== Sys2Proof/Config.lean ====
section
/-! DEFINITION. What the hardware fixes: the constants of R8 and R11, the closed set of mnemonic lengths, and the
one free value of the spec, `draw(32)` (R14, R63). The open parameters `BUS_PROTOCOL`, `CLOCK`, `BASE` and
`RST_STYLE` have no constant here, because no rule depends on them (R11). -/

namespace Sys2Proof

/-- The supported mnemonic lengths: `LENGTHS` = 12, 15, 18, 21, 24 words and no other (R8, conflict C4). -/
inductive MnemonicLength where
  | w12 | w15 | w18 | w21 | w24
deriving DecidableEq, Repr

namespace Config

/-- `WORD_BITS`, the width of a WordIndex (R8). -/
def wordBits : Nat := 11

/-- `WORDLIST_SIZE`: a slot value at or above it is a not-found marker (R8, R30). -/
def wordlistSize : Nat := 2048

/-- `DICE_DIGITS`, the characters of a dice string (R8). -/
def diceDigits : Nat := 5

/-- `DICE_RADIX` (R8). -/
def diceRadix : Nat := 6

/-- `DICE_SPACE` = 6^5, one above the highest dice index (R8). -/
def diceSpace : Nat := 7776

/-- `CUTOFF`, the largest multiple of 2048 not above 7776; only the host uses it (R8, R198). -/
def cutoff : Nat := 6144

/-- `CHAR_ONE`, the code of the character '1'; '1' to '6' are 0x31 to 0x36 (R11, R190). -/
def charOne : Nat := 0x31

/-- `draw(32)` (R14): the value the `k`-th arbitrary read of a run returns. A FREE VALUE: it has no body, so
nothing can be proved of what it is (R63, U9; log entry 3). -/
opaque draw : Nat → BitVec 32

end Config

end Sys2Proof
end

