-- ==== Sys2Proof/Syntax.lean ====
section
/-! DEFINITION. The commands of the core, which stand where a processor has instructions (R2): one constructor
for each row of the opcode map (R92). -/

namespace Sys2Proof

/-- A legal command word. The length of a `SOLVE` is part of the row; its `WCNT` and the `IMM16` of `I2D` are
operands held at exactly the width of their field (R92, R94, R95). -/
inductive Instr where
  /-- `SOLVE.12`: run the checkword solver for 12 words; `wcnt` is the number of known words supplied. -/
  | solve12 (wcnt : Byte)
  /-- `SOLVE.15`. -/
  | solve15 (wcnt : Byte)
  /-- `SOLVE.18`. -/
  | solve18 (wcnt : Byte)
  /-- `SOLVE.21`. -/
  | solve21 (wcnt : Byte)
  /-- `SOLVE.24`. -/
  | solve24 (wcnt : Byte)
  /-- `D2I`: convert the dice string of `DICE_IN_LO`, `DICE_IN_HI` to an index. -/
  | d2i
  /-- `I2D`: convert the index `imm16` to a dice string. -/
  | i2d (imm16 : BitVec 16)
  /-- `CLR`: return the core to its reset state. -/
  | clr
deriving DecidableEq, Repr

/-- The mnemonic of the command's row (R92). -/
def Instr.mnemonic : Instr → String
  | .solve12 _ => "SOLVE.12"
  | .solve15 _ => "SOLVE.15"
  | .solve18 _ => "SOLVE.18"
  | .solve21 _ => "SOLVE.21"
  | .solve24 _ => "SOLVE.24"
  | .d2i => "D2I"
  | .i2d _ => "I2D"
  | .clr => "CLR"

/-- `SOLVE L, WCNT` as the command of its row: `.solve12`, `.solve15`, `.solve18`, `.solve21` or `.solve24`. -/
def Instr.solve : MnemonicLength → Byte → Instr
  | .w12, n => .solve12 n
  | .w15, n => .solve15 n
  | .w18, n => .solve18 n
  | .w21, n => .solve21 n
  | .w24, n => .solve24 n

/-- Whether the command is a `SOLVE`, the only command that has iteration steps (R120, R281). -/
def Instr.isSolve : Instr → Bool
  | .solve12 _ => true
  | .solve15 _ => true
  | .solve18 _ => true
  | .solve21 _ => true
  | .solve24 _ => true
  | .d2i => false
  | .i2d _ => false
  | .clr => false

end Sys2Proof
end

