-- ==== Sys2Proof/WellFormed.lean ====
section
/-! DEFINITION. What the assembler notation refuses (R99). A command (`Instr`) is well formed by construction:
each operand has exactly the width of its field and every value of the field is a legal encoding (R94, R95).
A line of the notation carries plain numbers, so it can be wrong, and `SourceLine.wf` is the check. -/

namespace Sys2Proof

/-- A command line of the notation of R99, with the pseudo-instruction `SOLVE L` of R100. -/
inductive SourceLine where
  /-- `SOLVE L, n`. -/
  | solve (len wcnt : Nat)
  /-- `SOLVE L`, short for `SOLVE L, L−1`. -/
  | solveAll (len : Nat)
  /-- `D2I`. -/
  | d2i
  /-- `I2D i`. -/
  | i2d (index : Nat)
  /-- `CLR`. -/
  | clr
deriving DecidableEq, Repr

/-- The mnemonic length a number of words names, if it is one of the five (R93). -/
def MnemonicLength.ofNat? (n : Nat) : Option MnemonicLength :=
  if n = 12 then some .w12
  else if n = 15 then some .w15
  else if n = 18 then some .w18
  else if n = 21 then some .w21
  else if n = 24 then some .w24
  else none

/-- "`L` must be one of 12, 15, 18, 21, 24, `n` in 0..255 and `i` in 0..65535, or the assembler refuses the
line" (R99). -/
def SourceLine.wf : SourceLine → Bool
  | .solve len wcnt => (MnemonicLength.ofNat? len).isSome && decide (wcnt < 256)
  | .solveAll len => (MnemonicLength.ofNat? len).isSome
  | .d2i => true
  | .i2d index => decide (index < 65536)
  | .clr => true

/-- Every command is well formed: "Every value is a legal encoding" of `WCNT` and of `IMM16` (R94, R95), and a
field's width is its type. -/
def Instr.wf : Instr → Bool
  | .solve12 _ => true
  | .solve15 _ => true
  | .solve18 _ => true
  | .solve21 _ => true
  | .solve24 _ => true
  | .d2i => true
  | .i2d _ => true
  | .clr => true

end Sys2Proof
end

