-- ==== Sys2Proof/Decode.lean ====
section
/-! DEFINITION. The command word: its fields (R90), the decoder of the dispatch step (R91), the encoder, and the
opcode map (R92). The decoder is total: each of the 2^32 words is a command or is refused by a reason's name. -/

namespace Sys2Proof

/-- Why a word is no command (R97). All of them end in the one error `ILLEGAL_CMD` (R234). -/
inductive IllegalWord where
  /-- Bits 31:24 are not zero. -/
  | reservedHigh
  /-- Bits 7:4 are not zero. -/
  | reservedLow
  /-- `OP` = 1 and `LEN` is not one of the five lengths. -/
  | unknownLength
  /-- `OP` = 2 or 4 and bits 23:8 are not zero. -/
  | operandNotZero
  /-- `OP` is 0 or 5 to 15. -/
  | unassignedOp
deriving DecidableEq, Repr

/-- What the decoder answers. -/
inductive Decoded where
  | legal (i : Instr)
  | illegal (why : IllegalWord)
deriving DecidableEq, Repr

/-- `OP`, bits 3:0 (R90). -/
def opField (c : Word) : BitVec 4 := c.extractLsb' 0 4

/-- Bits 7:4, which must be zero (R90). -/
def lowReserved (c : Word) : BitVec 4 := c.extractLsb' 4 4

/-- `LEN`, bits 15:8 of format S (R93). -/
def lenField (c : Word) : Byte := c.extractLsb' 8 8

/-- `WCNT`, bits 23:16 of format S (R94). -/
def wcntField (c : Word) : Byte := c.extractLsb' 16 8

/-- `IMM16`, bits 23:8 of format I (R95); in format Z these bits must be zero. -/
def imm16Field (c : Word) : BitVec 16 := c.extractLsb' 8 16

/-- Bits 31:24, which must be zero (R90). -/
def highReserved (c : Word) : Byte := c.extractLsb' 24 8

/-- Format S: the row of the opcode map is chosen by `LEN`, a plain number of words (R93). -/
def decodeSolve (len wcnt : Byte) : Decoded :=
  match MnemonicLength.ofNat? len.toNat with
  | some L => .legal (Instr.solve L wcnt)
  | none => .illegal .unknownLength

/-- The decoder of the dispatch step, in the order of R91. -/
def decodeWord (c : Word) : Decoded :=
  if highReserved c ≠ 0 then .illegal .reservedHigh
  else if lowReserved c ≠ 0 then .illegal .reservedLow
  else if opField c = 1 then decodeSolve (lenField c) (wcntField c)
  else if opField c = 2 then
    if imm16Field c ≠ 0 then .illegal .operandNotZero else .legal .d2i
  else if opField c = 3 then .legal (.i2d (imm16Field c))
  else if opField c = 4 then
    if imm16Field c ≠ 0 then .illegal .operandNotZero else .legal .clr
  else .illegal .unassignedOp

/-- A word of format S: `00000000 wwwwwwww llllllll 0000 0001` (R90). -/
def encodeS (wcnt len : Byte) : Word := 0#8 ++ wcnt ++ len ++ 0#4 ++ 1#4

/-- A word of format I: `00000000 iiiiiiii iiiiiiii 0000 0011` (R90). -/
def encodeI (imm16 : BitVec 16) : Word := 0#8 ++ imm16 ++ 0#4 ++ 3#4

/-- A word of format Z: 28 zero bits above `OP` (R90). -/
def encodeZ (op : BitVec 4) : Word := 0#28 ++ op

/-- The command word of a command (R90, R92). -/
def encode : Instr → Word
  | .solve12 wcnt => encodeS wcnt 12
  | .solve15 wcnt => encodeS wcnt 15
  | .solve18 wcnt => encodeS wcnt 18
  | .solve21 wcnt => encodeS wcnt 21
  | .solve24 wcnt => encodeS wcnt 24
  | .d2i => encodeZ 2
  | .i2d imm16 => encodeI imm16
  | .clr => encodeZ 4

/-- A row of the opcode map (R92). -/
structure OpcodeRow where
  mnemonic : String
  mask : Word
  pattern : Word
deriving DecidableEq, Repr

/-- "A word `c` selects the row exactly when `c & mask == match`" (R92). -/
def OpcodeRow.selects (r : OpcodeRow) (c : Word) : Bool := c &&& r.mask == r.pattern

/-- The opcode map, row by row as R92 prints it. -/
def opcodeMap : List OpcodeRow :=
  [ ⟨"SOLVE.12", 0xFF00FFFF, 0x00000C01⟩,
    ⟨"SOLVE.15", 0xFF00FFFF, 0x00000F01⟩,
    ⟨"SOLVE.18", 0xFF00FFFF, 0x00001201⟩,
    ⟨"SOLVE.21", 0xFF00FFFF, 0x00001501⟩,
    ⟨"SOLVE.24", 0xFF00FFFF, 0x00001801⟩,
    ⟨"D2I", 0xFFFFFFFF, 0x00000002⟩,
    ⟨"I2D", 0xFF0000FF, 0x00000003⟩,
    ⟨"CLR", 0xFFFFFFFF, 0x00000004⟩ ]

/-- The 32-bit word whose low `nbits` bits are those of `w` and whose other bits are 0. -/
def tableWord (nbits w : Nat) : Word := BitVec.ofNat 32 (w % 2 ^ nbits)

/-- The command the decoder reads from an opcode-table word; a command is one 32-bit word (R90), so a longer
one is none. -/
def decodeTableWord (nbits w : Nat) : Option Instr :=
  if nbits ≤ 32 then
    match decodeWord (tableWord nbits w) with
    | .legal i => some i
    | .illegal _ => none
  else none

end Sys2Proof
end

