-- ==== Sys2Proof/Machine/State.lean ====
section
/-! DEFINITION. The state of the core, exactly the registers of R20 with the fields of R22 to R34, and beside it
the model's own record of what the other two agents do (R15). STATE IS PLAIN DATA. Bits that always read 0 are
not state (93_implementation_defined.md part 2; log entry 6). -/

namespace Sys2Proof.Machine

/-- `PHASE`, the hidden sequencer state (R34). -/
inductive Phase where
  /-- No command in progress; the host may write. -/
  | idle
  /-- A command word has been accepted and not yet decoded. -/
  | dispatch
  /-- A `SOLVE` passed its checks and is iterating over nonces. -/
  | iter
deriving DecidableEq, Repr

/-- The command errors of R230 and `NONE`; codes 6 to 15 are never produced (R23). -/
inductive ErrCode where
  | none
  | invalidWord
  | invalidDiceChar
  | lengthMismatch
  | illegalCmd
  | indexRange
deriving DecidableEq, Repr

/-- The host-visible registers, one name for each mapped address (R20, R61). -/
inductive Reg where
  | cmd | status | errInfo | nonce | rcount | idxOut
  | diceOutLo | diceOutHi | diceInLo | diceInHi
  | w (k : Fin 23)
  | res (n : Fin 128)
deriving DecidableEq, Repr

/-- What the port answers to a transaction: `OK(value)`, `OK` or `ERR` (R60). -/
inductive PortResponse where
  | okData (v : Word)
  | ok
  | err
deriving DecidableEq, Repr

/-- One atomic action of an agent (R15, R70). `size` is the access width in bytes; only 4 is served (R66). -/
inductive AgentAction where
  /-- The core sequencer takes its turn. -/
  | core
  /-- The host performs `MemRead(addr, size)`. -/
  | read (addr : PortAddr) (size : Nat)
  /-- The host performs `MemWrite(addr, size, v)`. -/
  | write (addr : PortAddr) (size : Nat) (v : Word)
  /-- The platform asserts `rst` (R270). -/
  | reset
deriving DecidableEq, Repr

/-- The machine. The fields down to `res` are the state of R20; `agenda`, `response` and `draws` are the model's
own (log entries 1, 2, 3). -/
structure State where
  /-- `PHASE` (R34). -/
  phase : Phase
  /-- `CMD`, the last accepted command word (R24). -/
  cmd : Word
  /-- `STATUS.DONE` (R22). -/
  done : Bool
  /-- `STATUS.ERRCODE`; `STATUS.ERR` is computed from it (R22, R23; log entry 7). -/
  errCode : ErrCode
  /-- `ERRINFO.POS` (R26). -/
  errPos : Byte
  /-- `ERRINFO.VAL` (R26). -/
  errVal : Byte
  /-- `NONCE[7:0]`, the loop position (R27). -/
  nonce : Byte
  /-- `RCOUNT[7:0]` (R28). -/
  rcount : Byte
  /-- `IDX_OUT[12:0]` (R29). -/
  idxOut : BitVec 13
  /-- `DICE_OUT_LO` (R32). -/
  diceOutLo : Word
  /-- `DICE_OUT_HI[7:0]` (R32). -/
  diceOutHi : Byte
  /-- `DICE_IN_LO` (R31). -/
  diceInLo : Word
  /-- `DICE_IN_HI`, all 32 bits (R31). -/
  diceInHi : Word
  /-- `W[0..22]`, all 32 bits each (R30). -/
  w : Vector Word 23
  /-- `RES[n][10:0]` for n = 0..127 (R33). -/
  res : Vector WordIndex 128
  /-- The actions the agents take next, in their total order; when it is empty the core takes its turn. -/
  agenda : List AgentAction
  /-- The port's answer to the last host transaction; `none` before the first. -/
  response : Option PortResponse
  /-- How many free values have been drawn. -/
  draws : Nat
deriving DecidableEq, Repr

/-- Where a step stops. No run of the core reaches either (log entry 5); both are SAFE: the spec gives such a
state no step, and the model goes no further. -/
inductive Fault where
  /-- Raised by the sequencer in `PHASE = ITER` when `CMD` is no `SOLVE`: R34 has `ITER` only in a `SOLVE`. Safe. -/
  | iterationOutsideSolve
  /-- Raised by a `SOLVE` in `PHASE = ITER` when `NONCE ≥ count`: R124 has `0 ≤ n < count`. Safe. -/
  | nonceOutOfRange
deriving DecidableEq, Repr

/-- What a step may refuse. Every command of the opcode map has its meaning, so no arm of `exec` answers it. -/
inductive Refusal where
  /-- An instruction without a meaning yet; raised by `exec`'s arms only. Safe. -/
  | notModelled (mnemonic : String)
deriving DecidableEq, Repr

/-- The state right after reset (R37): `IDLE` and every register 0. Nothing has been asked of the port. -/
def State.reset : State where
  phase := .idle
  cmd := 0
  done := false
  errCode := .none
  errPos := 0
  errVal := 0
  nonce := 0
  rcount := 0
  idxOut := 0
  diceOutLo := 0
  diceOutHi := 0
  diceInLo := 0
  diceInHi := 0
  w := Vector.replicate 23 0
  res := Vector.replicate 128 0
  agenda := []
  response := .none
  draws := 0

end Sys2Proof.Machine
end

