-- ==== Sys2Proof/Machine/Flags.lean ====
section
/-! DEFINITION. The flags of the core and the words the status registers read as (R22, R23, R26), with the two
output signals (R38). No arithmetic operation sets a flag (R22). -/

namespace Sys2Proof.Machine

/-- `STATUS.BUSY`: 1 while `PHASE ≠ IDLE`; computed, not stored (R22). -/
def State.busy (s : State) : Bool := decide (s.phase ≠ .idle)

/-- `STATUS.ERR`: "equal to `ERRCODE ≠ 0`" (R22). -/
def State.err (s : State) : Bool := decide (s.errCode ≠ .none)

/-- The number of an error (R23). -/
def ErrCode.code : ErrCode → BitVec 4
  | .none => 0
  | .invalidWord => 1
  | .invalidDiceChar => 2
  | .lengthMismatch => 3
  | .illegalCmd => 4
  | .indexRange => 5

/-- What `STATUS` reads as: `ERRCODE` in bits 7:4, a 0, `ERR`, `DONE`, `BUSY`; bits 31:8 are 0 (R22). -/
def statusWord (s : State) : Word :=
  0#24 ++ s.errCode.code ++ 0#1 ++ BitVec.ofBool s.err ++ BitVec.ofBool s.done ++ BitVec.ofBool s.busy

/-- What `ERRINFO` reads as: `VAL` in bits 15:8, `POS` in bits 7:0; bits 31:16 are 0 (R26). -/
def errInfoWord (s : State) : Word := 0#16 ++ s.errVal ++ s.errPos

/-- The output signal `busy`, equal to `STATUS.BUSY` (R38). -/
def busyOut (s : State) : Bool := (statusWord s).getLsbD 0

/-- The output signal `done`, equal to `STATUS.DONE`; a platform may wire it to an interrupt controller (R38, R241). -/
def doneOut (s : State) : Bool := (statusWord s).getLsbD 1

end Sys2Proof.Machine
end

