-- ==== Sys2Proof/Machine/Operands.lean ====
section
/-! DEFINITION. The operands of the commands: the parameters a mnemonic length selects (R9), the known words of a
`SOLVE` (R30, R96), the characters of a dice string (R31, R96) and the lanes they lie in. -/

namespace Sys2Proof

/-- The number of words, `L` (R93). -/
def MnemonicLength.words : MnemonicLength → Nat
  | .w12 => 12
  | .w15 => 15
  | .w18 => 18
  | .w21 => 21
  | .w24 => 24

/-- "`entropy_bits = 32 * length / 3`" (R9); the division is exact (conflict C4). -/
def MnemonicLength.entropyBits (L : MnemonicLength) : Nat := 32 * L.words / 3

/-- `entropy_bytes` (R9). -/
def MnemonicLength.entropyBytes (L : MnemonicLength) : Nat := L.entropyBits / 8

/-- "`checksum_bits = entropy_bits / 32`" (R9). -/
def MnemonicLength.checksumBits (L : MnemonicLength) : Nat := L.entropyBits / 32

/-- "`total_bits = entropy_bits + checksum_bits`" (R9). -/
def MnemonicLength.totalBits (L : MnemonicLength) : Nat := L.entropyBits + L.checksumBits

/-- "`nonce_bits = 11 - checksum_bits`" (R9). -/
def MnemonicLength.nonceBits (L : MnemonicLength) : Nat := Config.wordBits - L.checksumBits

/-- `count = 2^nonce_bits`, the number of candidates (R9, conflict C1). -/
def MnemonicLength.count (L : MnemonicLength) : Nat := 2 ^ L.nonceBits

/-- "`check_shift = 8 - checksum_bits`" (R9). -/
def MnemonicLength.checkShift (L : MnemonicLength) : Nat := 8 - L.checksumBits

/-- "`check_mask = ((1 << checksum_bits) - 1) << check_shift`" (R9). -/
def MnemonicLength.checkMask (L : MnemonicLength) : Nat := ((1 <<< L.checksumBits) - 1) <<< L.checkShift

/-- The number of known words a `SOLVE` takes, `L − 1` (R120). -/
def MnemonicLength.known (L : MnemonicLength) : Nat := L.words - 1

namespace Machine

/-- The word operands of a `SOLVE`: `W[0]` to `W[L−2]`, and no other slot (R96, R120). -/
def knownWords (L : MnemonicLength) (s : State) : List Word := s.w.toList.take L.known

/-- `v ≥ 2048`, on all 32 bits: the slot holds a not-found marker (R30, R122). -/
def isNotFound (v : Word) : Bool := decide (Config.wordlistSize ≤ v.toNat)

/-- The lowest slot that holds a not-found marker (R122). -/
def firstNotFound (ws : List Word) : Option Nat := ws.findIdx? isNotFound

/-- Byte lane `j` of a 32-bit register, bits `8j+7 : 8j` (R31). -/
def lane (v : Word) (j : Nat) : Byte := v.extractLsb' (8 * j) 8

/-- The dice string operand, character 0 first: `DICE_IN_LO` lanes 0 to 3, then `DICE_IN_HI[7:0]` (R31, R96). -/
def diceChars (s : State) : List Byte :=
  [lane s.diceInLo 0, lane s.diceInLo 1, lane s.diceInLo 2, lane s.diceInLo 3, lane s.diceInHi 0]

/-- Whether a code is one of '1' to '6', 0x31 to 0x36 (R190). -/
def isDiceChar (c : Byte) : Bool :=
  decide (Config.charOne ≤ c.toNat ∧ c.toNat < Config.charOne + Config.diceRadix)

/-- The digit value of a character, its code less 0x31 (R190). -/
def digitValue (c : Byte) : Nat := c.toNat - Config.charOne

/-- The character of a digit value (R190, R194). -/
def digitChar (d : Nat) : Byte := BitVec.ofNat 8 (Config.charOne + d)

/-- Four characters in the lanes of one register, character 0 in the lowest (R32). -/
def packLanes (c0 c1 c2 c3 : Byte) : Word := c3 ++ c2 ++ c1 ++ c0

end Machine

end Sys2Proof
end

