-- ==== Sys2Proof/Machine/Ops.lean ====
section
/-! DEFINITION. The named operations over the registers: command acceptance (R65), the end of a command with an
error (`raise`, R237) and without (`complete`, R238), the return to the reset state (R210, R270), and the register
file behind the port (R20, R61). A command error is this hardware's synchronous exception: nothing is vectored
and there is no return (R237, R239), so `raise` is the whole of taking one. -/

namespace Sys2Proof.Machine

/-- Command acceptance (R65): the word goes to `CMD`, the sequencer to `DISPATCH`, and every status and result
register to 0; the operand registers stay. -/
def State.accept (v : Word) (s : State) : State :=
  { s with
    cmd := v
    phase := .dispatch
    done := false
    errCode := .none
    errPos := 0
    errVal := 0
    nonce := 0
    rcount := 0
    idxOut := 0
    diceOutLo := 0
    diceOutHi := 0
    res := Vector.replicate 128 0 }

/-- `raise E(pos, val)` (R237): the command ends with an error; nothing else is written. -/
def State.raise (e : ErrCode) (pos val : Byte) (s : State) : State :=
  { s with errCode := e, done := true, errPos := pos, errVal := val, phase := .idle }

/-- `complete` (R238): the command ends without error. -/
def State.complete (s : State) : State := { s with done := true, phase := .idle }

/-- Every register of R20 takes its reset value of R37: the effect of `CLR` (R210) and of the reset action (R270).
What the other agents do next, the last answer of the port and the count of draws are no registers of the core. -/
def State.clearCore (s : State) : State :=
  { State.reset with agenda := s.agenda, response := s.response, draws := s.draws }

/-- The registers at fixed addresses (R20). -/
def fixedRegs : List (PortAddr × Reg) :=
  [ (0x000, .cmd), (0x004, .status), (0x008, .errInfo), (0x00C, .nonce), (0x010, .rcount),
    (0x014, .idxOut), (0x018, .diceOutLo), (0x01C, .diceOutHi), (0x020, .diceInLo), (0x024, .diceInHi) ]

/-- Address decode: the register at a mapped address; every other address, every misaligned one among them, is
unmapped (R61, R66). -/
def regAt (a : PortAddr) : Option Reg :=
  match fixedRegs.lookup a with
  | some r => some r
  | none =>
    if a.toNat % 4 ≠ 0 then none
    else if h : 0x100 ≤ a.toNat ∧ a.toNat ≤ 0x158 then some (.w ⟨(a.toNat - 0x100) / 4, by omega⟩)
    else if h : 0x200 ≤ a.toNat ∧ a.toNat ≤ 0x3FC then some (.res ⟨(a.toNat - 0x200) / 4, by omega⟩)
    else none

/-- The address of a register (R20). -/
def Reg.addr : Reg → PortAddr
  | .cmd => 0x000
  | .status => 0x004
  | .errInfo => 0x008
  | .nonce => 0x00C
  | .rcount => 0x010
  | .idxOut => 0x014
  | .diceOutLo => 0x018
  | .diceOutHi => 0x01C
  | .diceInLo => 0x020
  | .diceInHi => 0x024
  | .w k => BitVec.ofNat 10 (0x100 + 4 * k.val)
  | .res n => BitVec.ofNat 10 (0x200 + 4 * n.val)

/-- Whether the host may write the register: `CMD`, the dice operands and the word slots (R61). -/
def Reg.writable : Reg → Bool
  | .cmd => true
  | .diceInLo => true
  | .diceInHi => true
  | .w _ => true
  | .status => false
  | .errInfo => false
  | .nonce => false
  | .rcount => false
  | .idxOut => false
  | .diceOutLo => false
  | .diceOutHi => false
  | .res _ => false

/-- The registers whose value during a run is `draw(32)`: `NONCE` and `RES` (R63). -/
def Reg.drawnWhileBusy : Reg → Bool
  | .nonce => true
  | .res _ => true
  | .cmd => false
  | .status => false
  | .errInfo => false
  | .rcount => false
  | .idxOut => false
  | .diceOutLo => false
  | .diceOutHi => false
  | .diceInLo => false
  | .diceInHi => false
  | .w _ => false

/-- The current value of a register, the bits that are not state read as 0 (R20, R22 to R33). -/
def State.readReg (s : State) : Reg → Word
  | .cmd => s.cmd
  | .status => statusWord s
  | .errInfo => errInfoWord s
  | .nonce => s.nonce.setWidth 32
  | .rcount => s.rcount.setWidth 32
  | .idxOut => s.idxOut.setWidth 32
  | .diceOutLo => s.diceOutLo
  | .diceOutHi => s.diceOutHi.setWidth 32
  | .diceInLo => s.diceInLo
  | .diceInHi => s.diceInHi
  | .w k => s.w[k]
  | .res n => (s.res[n]).setWidth 32

/-- The effect of an accepted host write (R64): an operand register takes all 32 bits; a write to `CMD` starts a
command. The other registers are read-only and take nothing. -/
def State.writeReg (s : State) (r : Reg) (v : Word) : State :=
  match r with
  | .cmd => s.accept v
  | .diceInLo => { s with diceInLo := v }
  | .diceInHi => { s with diceInHi := v }
  | .w k => { s with w := s.w.set k v }
  | .status => s
  | .errInfo => s
  | .nonce => s
  | .rcount => s
  | .idxOut => s
  | .diceOutLo => s
  | .diceOutHi => s
  | .res _ => s

/-- The command word where the sequencer fetches it, and the sequencer's turn next: an accepted `CMD` write. -/
def State.placeCommand (s : State) (v : Word) : State :=
  { s.accept v with agenda := .core :: s.agenda }

end Sys2Proof.Machine
end

