-- ==== Sys2Proof/Machine/Control.lean ====
section
/-! DEFINITION. The control command `CLR` (R210). It has no error and does not use `complete`: it ends with
`STATUS` = 0. -/

namespace Sys2Proof.Machine

/-- `CLR` (R210): every register of R20 takes its reset value. -/
def execClr (s : State) : Host.Outcome State Fault Refusal := .next s.clearCore

end Sys2Proof.Machine
end

