-- ==== Sys2Proof/Machine/Dice.lean ====
section
/-! DEFINITION. The Dice Index Codec: `D2I` (R192, R193) and `I2D` (R194, R195). Each completes in its dispatch
step. -/

namespace Sys2Proof.Machine

/-- What the scan of a dice string gives: the index, or the first invalid character and its position. -/
inductive DiceScan where
  | index (x : Nat)
  | invalid (pos : Nat) (c : Byte)
deriving DecidableEq, Repr

/-- The loop of R192 from character `pos` with `acc` accumulated: it stops at the first invalid character (R193). -/
def scanDice : Nat → Nat → List Byte → DiceScan
  | _, acc, [] => .index acc
  | pos, acc, c :: cs =>
    if isDiceChar c then scanDice (pos + 1) (acc * Config.diceRadix + digitValue c) cs
    else .invalid pos c

/-- `D2I` (R192): the index to `IDX_OUT`, or `INVALID_DICE_CHAR` with nothing decoded (R193). -/
def execD2i (s : State) : Host.Outcome State Fault Refusal :=
  match scanDice 0 0 (diceChars s) with
  | .index x => .next ({ s with idxOut := BitVec.ofNat 13 x } : State).complete
  | .invalid pos c => .next (s.raise .invalidDiceChar (BitVec.ofNat 8 pos) c)

/-- The loop of R194: `k` characters of `r`, the least significant digit last, before those already made. -/
def diceLoop : Nat → Nat → List Byte → List Byte
  | 0, _, out => out
  | k + 1, r, out => diceLoop k (r / Config.diceRadix) (digitChar (r % Config.diceRadix) :: out)

/-- The five characters of an index, left-padded with '1' (R194). -/
def diceString (i : Nat) : List Byte := diceLoop Config.diceDigits i []

/-- `I2D i` (R194): the characters to `DICE_OUT_LO` and `DICE_OUT_HI`, or `INDEX_RANGE` for `i ≥ 7776` (R195). -/
def execI2d (imm16 : BitVec 16) (s : State) : Host.Outcome State Fault Refusal :=
  let i := imm16.toNat
  if Config.diceSpace ≤ i then .next (s.raise .indexRange 0 0)
  else
    let out := diceString i
    .next
      ({ s with
          diceOutLo := packLanes (out.getD 0 0) (out.getD 1 0) (out.getD 2 0) (out.getD 3 0)
          diceOutHi := out.getD 4 0 } : State).complete

end Sys2Proof.Machine
end

