-- ==== Sys2Proof/Machine/Packer.lean ====
section
/-! DEFINITION. The entropy-block packer: `Pack` as R150 defines it, and the bit-accumulator that R151 gives as its
reference implementation. The core calls `Pack` only; the accumulator is stated to compute the same bytes. -/

namespace Sys2Proof.Machine

/-- A field of the bit stream: a value and its width in bits (R150). -/
structure BitField where
  value : Nat
  width : Nat
deriving DecidableEq, Repr

/-- `T`, the total width of the fields (R150). -/
def totalWidth (F : List BitField) : Nat := (F.map BitField.width).sum

/-- `S`, the fields concatenated, the first one most significant (R12, R150). -/
def streamNumber (F : List BitField) : Nat := F.foldl (fun S f => (S <<< f.width) ||| f.value) 0

/-- A number as `k` bytes, the most significant first (R13). -/
def bigEndianBytes (k S : Nat) : List Byte :=
  (List.range k).map fun j => BitVec.ofNat 8 (S >>> (8 * k - 8 - 8 * j))

/-- `Pack(F)` (R150): `ENT[j] = S[T − 1 − 8j : T − 8 − 8j]`. `T` is a multiple of 8 wherever the core calls it
(R152; log entry 10). -/
def pack (F : List BitField) : List Byte := bigEndianBytes (totalWidth F / 8) (streamNumber F)

/-- `ACC`, `NBITS` and `ENT`, which live inside one packing only (R36, R151). -/
structure Accumulator where
  acc : Nat
  nbits : Nat
  ent : List Byte
deriving DecidableEq, Repr

/-- The inner loop of R151, "while NBITS >= 8", at most `fuel` times. -/
def flushBytes : Nat → Accumulator → Accumulator
  | 0, a => a
  | fuel + 1, a =>
    if 8 ≤ a.nbits then
      flushBytes fuel
        { acc := a.acc &&& (2 ^ (a.nbits - 8) - 1)
          nbits := a.nbits - 8
          ent := a.ent ++ [BitVec.ofNat 8 ((a.acc >>> (a.nbits - 8)) &&& 0xFF)] }
    else a

/-- One field shifted in, then the whole bytes taken out; each takes 8 bits, so `NBITS` is fuel enough (R151). -/
def accumulate (a : Accumulator) (f : BitField) : Accumulator :=
  flushBytes (a.nbits + f.width)
    { a with acc := (a.acc <<< f.width) ||| f.value, nbits := a.nbits + f.width }

/-- The accumulator after all fields, from `ACC = 0`, `NBITS = 0`, `ENT` empty (R151). -/
def packByAccumulator (F : List BitField) : Accumulator := F.foldl accumulate ⟨0, 0, []⟩

end Sys2Proof.Machine
end

