-- ==== Sys2Proof/Machine/Sha256.lean ====
section
/-! DEFINITION. The configuration function `SHA256` (R10), defined as R221 to R227 give it, which R220 requires. The
spec marks these rules as general knowledge (log entry 4). A hash value and the working variables of a compression are
eight words in order: index 0 is `Hh[0]` or `a`, index 7 is `Hh[7]` or `h` (R225). -/

namespace Sys2Proof.Machine

/-- `Hh[0..7]`, or the working variables `a` to `h` (R225). -/
abbrev HashWords := Vector Word 8

/-- `ROTR(x, n)` (R221): the low `n` bits of a word moved above its other bits. -/
def rotr (x : Word) (n : Nat) : Word := (x <<< (32 - n)) ||| (x >>> n)

/-- The exclusive OR of the rotations of a word by the given amounts, which the four functions `BSIG` and `SSIG` of
R221 share. -/
def xorRotations (amounts : List Nat) (x : Word) : Word := (amounts.map (rotr x)).foldl (· ^^^ ·) 0

/-- `BSIG0` (R221). -/
def bigSigma0 : Word → Word := xorRotations [2, 13, 22]

/-- `BSIG1` (R221). -/
def bigSigma1 : Word → Word := xorRotations [6, 11, 25]

/-- `SSIG0` (R221). -/
def smallSigma0 (x : Word) : Word := xorRotations [7, 18] x ^^^ (x >>> 3)

/-- `SSIG1` (R221). -/
def smallSigma1 (x : Word) : Word := xorRotations [17, 19] x ^^^ (x >>> 10)

/-- `Ch(e, f, g)` of the working variables (R221, R225). -/
def chooseEFG (v : HashWords) : Word := (v[4] &&& v[5]) ^^^ (~~~v[4] &&& v[6])

/-- `Maj(a, b, c)` of the working variables (R221, R225). -/
def majorityABC (v : HashWords) : Word := (v[0] &&& v[1]) ^^^ (v[0] &&& v[2]) ^^^ (v[1] &&& v[2])

/-- The eight words of a line of R222, as the spec prints it: the first word leftmost. -/
def lineWords (line : BitVec 256) : HashWords := Vector.ofFn fun j => line.extractLsb' (224 - 32 * j.val) 32

/-- The initial hash value `H0[0..7]` (R222). -/
def initialHash : HashWords := lineWords 0x6a09e667_bb67ae85_3c6ef372_a54ff53a_510e527f_9b05688c_1f83d9ab_5be0cd19

/-- The round constants, line by line as R222 prints them: `K[0..7]`, `K[8..15]` and so on. -/
def roundConstantLines : List (BitVec 256) :=
  [ 0x428a2f98_71374491_b5c0fbcf_e9b5dba5_3956c25b_59f111f1_923f82a4_ab1c5ed5,
    0xd807aa98_12835b01_243185be_550c7dc3_72be5d74_80deb1fe_9bdc06a7_c19bf174,
    0xe49b69c1_efbe4786_0fc19dc6_240ca1cc_2de92c6f_4a7484aa_5cb0a9dc_76f988da,
    0x983e5152_a831c66d_b00327c8_bf597fc7_c6e00bf3_d5a79147_06ca6351_14292967,
    0x27b70a85_2e1b2138_4d2c6dfc_53380d13_650a7354_766a0abb_81c2c92e_92722c85,
    0xa2bfe8a1_a81a664b_c24b8b70_c76c51a3_d192e819_d6990624_f40e3585_106aa070,
    0x19a4c116_1e376c08_2748774c_34b0bcb5_391c0cb3_4ed8aa4a_5b9cca4f_682e6ff3,
    0x748f82ee_78a5636f_84c87814_8cc70208_90befffa_a4506ceb_bef9a3f7_c67178f2 ]

/-- `K[0..63]` (R222). -/
def roundConstants : List Word := roundConstantLines.flatMap fun line => (lineWords line).toList

/-- The padded message (R223): `M`, 0x80, the fewest 0x00 that leave 56 modulo 64, and `8·len` in 8 bytes.
DESIGN CHOICE (log entry 22): for a message of 2^61 bytes or more, where `8·len` is no 64-bit number and R223 gives
none, its low 64 bits stand there. The core's messages have at most 32 bytes. -/
def padMessage (M : List Byte) : List Byte :=
  let zeros := (119 - M.length % 64) % 64
  M ++ (0x80 : Byte) :: List.replicate zeros 0 ++ bigEndianBytes 8 (8 * M.length)

/-- Block `i` of a padded message, 64 bytes (R223). -/
def messageBlock (m : List Byte) (i : Nat) : List Byte := (m.drop (64 * i)).take 64

/-- `Wt[t]` for `t = 0..15`: four bytes of the block as a big-endian word (R224). -/
def blockWord (block : List Byte) (t : Nat) : Word :=
  ((block.drop (4 * t)).take 4).foldl (fun w b => (w <<< 8) ||| b.setWidth 32) 0

/-- The schedule word that follows the words `recent`, newest first (R224): `Wt[t−k]` is at index `k − 1`. -/
def nextScheduleWord (recent : List Word) : Word :=
  let back : Nat → Word := fun k => recent.getD (k - 1) 0
  smallSigma1 (back 2) + back 7 + smallSigma0 (back 15) + back 16

/-- `n` further words of the message schedule put before those already made, newest first (R224). -/
def extendSchedule : Nat → List Word → List Word
  | 0, recent => recent
  | n + 1, recent => extendSchedule n (nextScheduleWord recent :: recent)

/-- The message schedule `Wt[0..63]` of a 64-byte block (R224). -/
def schedule (block : List Byte) : List Word :=
  (extendSchedule 48 ((List.range 16).map (blockWord block)).reverse).reverse

/-- One round of the compression with its constant and schedule word (R225). -/
def shaRound (v : HashWords) (kw : Word × Word) : HashWords :=
  let t1 := v[7] + bigSigma1 v[4] + chooseEFG v + kw.1 + kw.2
  let t2 := bigSigma0 v[0] + majorityABC v
  #v[t1 + t2, v[0], v[1], v[2], v[3] + t1, v[4], v[5], v[6]]

/-- The compression of one block: 64 rounds, then the words added to those before the block (R225). -/
def compress (before : HashWords) (block : List Byte) : HashWords :=
  before.zipWith (· + ·) ((roundConstants.zip (schedule block)).foldl shaRound before)

/-- The hash value after the blocks of a padded message, in order (R225). -/
def hashBlocks (m : List Byte) : HashWords :=
  (List.range (m.length / 64)).foldl (fun v i => compress v (messageBlock m i)) initialHash

/-- `SHA256`: bytes to 32 bytes, total (R10, R220). Digest byte `4i + j` is `Hh[i][31 − 8j : 24 − 8j]` (R226). -/
def sha256 (M : List Byte) : Vector Byte 32 :=
  let final := hashBlocks (padMessage M)
  Vector.ofFn fun n => final[n.val / 4].extractLsb' (24 - 8 * (n.val % 4)) 8

end Sys2Proof.Machine
end

