-- ==== Sys2Proof/Machine/Checksum.lean ====
section
/-! DEFINITION. The SHA-256 checksum validator and candidate assembly (R170 to R174), with the predicate
`Bip39Valid` (R175), which the core does not compute and the statements about its results are about. -/

namespace Sys2Proof.Machine

/-- The fields of the entropy block: the known words, 11 bits each, in slot order, then the nonce (R124, R150). -/
def blockFields (L : MnemonicLength) (ws : List Word) (n : Nat) : List BitField :=
  ws.map (fun w => ⟨(w.extractLsb' 0 11).toNat, Config.wordBits⟩) ++ [⟨n, L.nonceBits⟩]

/-- The entropy block of a nonce, `ENT` (R124). -/
def entropyBlock (L : MnemonicLength) (ws : List Word) (n : Nat) : List Byte := pack (blockFields L ws n)

/-- `cks = (H[0] & check_mask) >> check_shift` (R172). -/
def checksumOf (L : MnemonicLength) (h0 : Byte) : Nat := (h0.toNat &&& L.checkMask) >>> L.checkShift

/-- `cand = (n << checksum_bits) | cks` (R173), exact: R174 says that it is below 2048. -/
def assemble (L : MnemonicLength) (n cks : Nat) : Nat := (n <<< L.checksumBits) ||| cks

/-- The candidate of a nonce: only byte 0 of the digest is used (R124, R170, R171). -/
def candidate (L : MnemonicLength) (ws : List Word) (n : Nat) : Nat :=
  assemble L n (checksumOf L (sha256 (entropyBlock L ws n))[0])

/-- `S` of R175: the indices of a whole phrase concatenated, 11 bits each. -/
def phraseNumber (idx : List Nat) : Nat := streamNumber (idx.map fun i => ⟨i, Config.wordBits⟩)

/-- `B` of R175: the entropy of a whole phrase as bytes. -/
def phraseEntropy (L : MnemonicLength) (idx : List Nat) : List Byte :=
  bigEndianBytes L.entropyBytes (phraseNumber idx >>> L.checksumBits)

/-- `Bip39Valid(L, i_0, …, i_{L−1})` (R175): the checksum of the phrase's entropy is the one the phrase embeds. -/
abbrev Bip39Valid (L : MnemonicLength) (idx : List Nat) : Prop :=
  (sha256 (phraseEntropy L idx))[0].toNat >>> (8 - L.checksumBits)
    = phraseNumber idx &&& (2 ^ L.checksumBits - 1)

end Sys2Proof.Machine
end

