-- ==== Sys2Proof/Machine/Solve.lean ====
section
/-! DEFINITION. The `SOLVE` commands (R120 to R126): one dispatch step that checks the operands, then one iteration
step for each nonce. A meaning is one core step of its command, and `PHASE` says which (log entry 8). -/

namespace Sys2Proof.Machine

/-- The dispatch step: the length check (R121), then the word check (R122), then the start of the loop (R123). -/
def solveDispatch (L : MnemonicLength) (wcnt : Byte) (s : State) : State :=
  if wcnt.toNat ≠ L.known then s.raise .lengthMismatch (BitVec.ofNat 8 L.known) wcnt
  else match firstNotFound (knownWords L s) with
    | some k => s.raise .invalidWord (BitVec.ofNat 8 k) 0
    | none => { s with phase := .iter }

/-- One iteration (R124), and with the last one the end of the loop (R125). -/
def iterate (L : MnemonicLength) (s : State) : State :=
  let n := s.nonce.toNat
  let stored : State :=
    { s with
      res := s.res.setIfInBounds n (BitVec.ofNat 11 (candidate L (knownWords L s) n))
      nonce := BitVec.ofNat 8 (n + 1) }
  if n + 1 = L.count then ({ stored with rcount := BitVec.ofNat 8 L.count } : State).complete else stored

/-- An iteration step, under the invariant `n < count` of R124. -/
def solveIterate (L : MnemonicLength) (s : State) : Host.Outcome State Fault Refusal :=
  if s.nonce.toNat < L.count then .next (iterate L s) else .fault .nonceOutOfRange

/-- One core step of `SOLVE L, WCNT` (R120). -/
def solveStep (L : MnemonicLength) (wcnt : Byte) (s : State) : Host.Outcome State Fault Refusal :=
  match s.phase with
  | .idle => .next (solveDispatch L wcnt s)
  | .dispatch => .next (solveDispatch L wcnt s)
  | .iter => solveIterate L s

/-- `SOLVE.12`. -/
def execSolve12 (wcnt : Byte) (s : State) : Host.Outcome State Fault Refusal := solveStep .w12 wcnt s

/-- `SOLVE.15`. -/
def execSolve15 (wcnt : Byte) (s : State) : Host.Outcome State Fault Refusal := solveStep .w15 wcnt s

/-- `SOLVE.18`. -/
def execSolve18 (wcnt : Byte) (s : State) : Host.Outcome State Fault Refusal := solveStep .w18 wcnt s

/-- `SOLVE.21`. -/
def execSolve21 (wcnt : Byte) (s : State) : Host.Outcome State Fault Refusal := solveStep .w21 wcnt s

/-- `SOLVE.24`. -/
def execSolve24 (wcnt : Byte) (s : State) : Host.Outcome State Fault Refusal := solveStep .w24 wcnt s

/-- `RES` after a `SOLVE` without error: the candidates in nonce order, then zeros (R126). -/
def solveResults (L : MnemonicLength) (ws : List Word) : Vector WordIndex 128 :=
  Vector.ofFn fun n => if n.val < L.count then BitVec.ofNat 11 (candidate L ws n.val) else 0

/-- The state after a `SOLVE` without error, as a function of the state at acceptance (R126). The step form above
is the model's `SOLVE`; that it ends here is stated, not assumed. -/
def solveFinal (L : MnemonicLength) (s : State) : State :=
  { s with
    phase := .idle
    done := true
    errCode := .none
    errPos := 0
    errVal := 0
    nonce := BitVec.ofNat 8 L.count
    rcount := BitVec.ofNat 8 L.count
    idxOut := 0
    diceOutLo := 0
    diceOutHi := 0
    res := solveResults L (knownWords L s) }

end Sys2Proof.Machine
end

