-- ==== Sys2Proof/Machine/Dispatch.lean ====
section
/-! DEFINITION. The meaning of each command: one core step of it (R91, R124). -/

namespace Sys2Proof.Machine

-- The rows of the opcode map (R92), in its order.
def exec (i : Instr) (s : State) : Host.Outcome State Fault Refusal :=
  match i with
  | .solve12 wcnt => Sys2Proof.Machine.execSolve12 wcnt s
  | .solve15 wcnt => Sys2Proof.Machine.execSolve15 wcnt s
  | .solve18 wcnt => Sys2Proof.Machine.execSolve18 wcnt s
  | .solve21 wcnt => Sys2Proof.Machine.execSolve21 wcnt s
  | .solve24 wcnt => Sys2Proof.Machine.execSolve24 wcnt s
  | .d2i => Sys2Proof.Machine.execD2i s
  | .i2d imm16 => Sys2Proof.Machine.execI2d imm16 s
  | .clr => Sys2Proof.Machine.execClr s

end Sys2Proof.Machine
end

