-- ==== Sys2Proof/Machine/Port.lean ====
section
/-! DEFINITION. The host port (R60 to R66): what `MemRead` and `MemWrite` answer and what they do. An answer is
recorded in `response`; a port error leaves no other trace (R240). -/

namespace Sys2Proof.Machine

/-- The port answers the transaction. -/
def State.answer (s : State) (p : PortResponse) : State := { s with response := some p }

/-- The value of a mapped register as the host sees it: during a run `NONCE` and `RES` give a free value, and
every other register its current value (R62, R63). -/
def hostReadReg (r : Reg) (s : State) : State :=
  if s.busy && r.drawnWhileBusy then
    { s with response := some (.okData (Config.draw s.draws)), draws := s.draws + 1 }
  else s.answer (.okData (s.readReg r))

/-- `MemRead(addr, size)` (R62, R66). -/
def hostRead (addr : PortAddr) (size : Nat) (s : State) : State :=
  if size ≠ 4 then s.answer .err
  else match regAt addr with
    | none => s.answer .err
    | some r => hostReadReg r s

/-- `MemWrite(addr, size, v)`: refused when the access is no whole word (R66), when the address is unmapped, when
the register is read-only, or while a command runs, in this order (R64). -/
def hostWrite (addr : PortAddr) (size : Nat) (v : Word) (s : State) : State :=
  if size ≠ 4 then s.answer .err
  else match regAt addr with
    | none => s.answer .err
    | some r =>
      if !r.writable then s.answer .err
      else if s.busy then s.answer .err
      else (s.writeReg r v).answer .ok

end Sys2Proof.Machine
end

