-- ==== Sys2Proof/Machine/Sequencer.lean ====
section
/-! DEFINITION. The core sequencer (R34, R91) and the turn-taking of the three agents (R15, R70). -/

namespace Sys2Proof.Machine

/-- The dispatch step (R91): the command of `CMD` takes its step, and a word that is none ends with `ILLEGAL_CMD`. -/
def dispatchStep (s : State) : Host.Outcome State Fault Refusal :=
  match decodeWord s.cmd with
  | .legal i => exec i s
  | .illegal _ => .next (s.raise .illegalCmd 0 0)

/-- An iteration step of the `SOLVE` in `CMD` (R124). `ITER` with another word in `CMD` is no state of a run. -/
def iterationStep (s : State) : Host.Outcome State Fault Refusal :=
  match decodeWord s.cmd with
  | .legal i => if i.isSolve then exec i s else .fault .iterationOutsideSolve
  | .illegal _ => .fault .iterationOutsideSolve

/-- The core sequencer's turn. In `IDLE` it does nothing: "the core does nothing until the host writes `CMD`" (R37). -/
def coreStep (s : State) : Host.Outcome State Fault Refusal :=
  match s.phase with
  | .idle => .next s
  | .dispatch => dispatchStep s
  | .iter => iterationStep s

/-- One action of an agent (R15). -/
def act (a : AgentAction) (s : State) : Host.Outcome State Fault Refusal :=
  match a with
  | .core => coreStep s
  | .read addr size => .next (hostRead addr size s)
  | .write addr size v => .next (hostWrite addr size v s)
  | .reset => .next s.clearCore

/-- The next action in the total order (R70): the head of the agenda, or a core step when the agenda is empty. -/
def nextAction (s : State) : Host.Outcome State Fault Refusal :=
  match s.agenda with
  | [] => coreStep s
  | a :: rest => act a { s with agenda := rest }

end Sys2Proof.Machine
end

