-- ==== Sys2Proof/Machine/Step.lean ====
section
/-! DEFINITION. One step of the machine: one atomic action (R70). -/

namespace Sys2Proof.Machine

/-- One step: the next action of the total order takes effect. -/
def step (s : State) : Host.Outcome State Fault Refusal := nextAction s

/-- `s` with the opcode-table word accepted as its command and the sequencer's turn next, so that the next step is
the dispatch step of exactly that word (R65, R91; log entry 9). -/
def State.withFetchWord (s : State) (nbits w : Nat) : State := s.placeCommand (tableWord nbits w)

end Sys2Proof.Machine
end

