-- ==== Sys2Proof/Machine/Script.lean ====
section
/-! DEFINITION. The host's side as far as the spec writes it down: the assembler notation (R99), the host-script
directives as actions (R100), and the host's cutoff rule for dice rolls (R198). Nothing here is a command of the
core. -/

namespace Sys2Proof

/-- The command a well-formed line names, if the assembler does not refuse it (R99, R100). -/
def SourceLine.command : SourceLine → Option Instr
  | .solve len wcnt =>
    if wcnt < 256 then (MnemonicLength.ofNat? len).map (fun L => Instr.solve L (BitVec.ofNat 8 wcnt)) else none
  | .solveAll len =>
    (MnemonicLength.ofNat? len).map (fun L => Instr.solve L (BitVec.ofNat 8 (len - 1)))
  | .d2i => some .d2i
  | .i2d index => if index < 65536 then some (.i2d (BitVec.ofNat 16 index)) else none
  | .clr => some .clr

/-- The command word of a line: `(n << 16) | (L << 8) | 1`, 2, `(i << 8) | 3`, 4 (R99). -/
def SourceLine.word : SourceLine → Nat
  | .solve len wcnt => (wcnt <<< 16) ||| (len <<< 8) ||| 1
  | .solveAll len => ((len - 1) <<< 16) ||| (len <<< 8) ||| 1
  | .d2i => 0x00000002
  | .i2d index => (index <<< 8) ||| 3
  | .clr => 0x00000004

namespace Machine

/-- `WR addr, v` (R100). -/
def scriptWr (addr : PortAddr) (v : Word) : List AgentAction := [.write addr 4 v]

/-- `RD addr` (R100). -/
def scriptRd (addr : PortAddr) : List AgentAction := [.read addr 4]

/-- A command line in a script means `MemWrite(0x000, 4, word)` (R99). -/
def scriptCommand (line : SourceLine) : List AgentAction := scriptWr 0x000 (BitVec.ofNat 32 line.word)

/-- `LDW k, v` (R100). -/
def scriptLdw (k : Fin 23) (v : Word) : List AgentAction := scriptWr (BitVec.ofNat 10 (0x100 + 4 * k.val)) v

/-- `LDDICE "c0c1c2c3c4"` (R100). -/
def scriptLddice (c0 c1 c2 c3 c4 : Byte) : List AgentAction :=
  scriptWr 0x020 (packLanes c0 c1 c2 c3) ++ scriptWr 0x024 (c4.setWidth 32)

/-- `WAIT` (R100) as `polls` reads of `STATUS`, each after a turn of the core (log entry 14). -/
def scriptWait : Nat → List AgentAction
  | 0 => []
  | polls + 1 => .core :: .read 0x004 4 :: scriptWait polls

/-- `RDRES n` (R100). -/
def scriptRdres (n : Fin 128) : List AgentAction := scriptRd (BitVec.ofNat 10 (0x200 + 4 * n.val))

/-- The host's duty with an index (R198): reject the roll at or above the cutoff, else take `x mod 2048`. -/
def rollWordIndex (x : Nat) : Option Nat :=
  if x < Config.cutoff then some (x % Config.wordlistSize) else none

end Machine

end Sys2Proof
end

