-- ==== Sys2Proof/Safety.lean ====
section
/-! DEFINITION. What holds of every state of a run, and what a safe run is. The invariant collects what the rules
say of the registers between actions: R22, R26 to R29, R33, R65, R124, R237, R238. -/

namespace Sys2Proof.Machine

/-- Every result register is 0, as acceptance, `CLR` and reset leave them (R27 to R29, R32, R33, R65). -/
structure ResultsClear (s : State) : Prop where
  nonce : s.nonce = 0
  rcount : s.rcount = 0
  idxOut : s.idxOut = 0
  diceOutLo : s.diceOutLo = 0
  diceOutHi : s.diceOutHi = 0
  res : s.res = Vector.replicate 128 0

/-- `RES` holds the candidates of the nonces below `n`, in their places, and 0 above (R33, R124). -/
def ResHoldsBelow (L : MnemonicLength) (ws : List Word) (n : Nat) (res : Vector WordIndex 128) : Prop :=
  ∀ m : Fin 128, res[m] = if m.val < n then BitVec.ofNat 11 (candidate L ws m.val) else 0

/-- What a `SOLVE` that passed its checks has between two of its iterations (R122 to R124). -/
structure Iterating (s : State) (L : MnemonicLength) : Prop where
  command : decodeWord s.cmd = .legal (Instr.solve L (BitVec.ofNat 8 L.known))
  inRange : s.nonce.toNat < L.count
  found : ∀ w ∈ knownWords L s, w.toNat < 2048
  results : ResHoldsBelow L (knownWords L s) s.nonce.toNat s.res

/-- The invariant of every run. -/
structure Inv (s : State) : Prop where
  /-- While a command runs no status flag but `BUSY` is set and only `NONCE` and `RES` may be other than 0 (R63). -/
  running : s.phase ≠ .idle →
    s.done = false ∧ s.errCode = .none ∧ s.rcount = 0 ∧ s.idxOut = 0 ∧ s.diceOutLo = 0 ∧ s.diceOutHi = 0
  /-- A command not yet decoded finds every result register 0 (R65). -/
  dispatching : s.phase = .dispatch → ResultsClear s
  /-- A run of iterations is one of a `SOLVE` (R34, R124). -/
  iterating : s.phase = .iter → ∃ L, Iterating s L
  /-- `ERRINFO` is 0 unless the last command ended in error (R26). -/
  noErrInfo : s.errCode = .none → s.errPos = 0 ∧ s.errVal = 0
  /-- A command that ended in error is done and has no results (R237). -/
  failed : s.errCode ≠ .none → s.done = true ∧ ResultsClear s
  /-- Idle with nothing to report is the state of the registers after reset or `CLR`, operands apart (R37, R210). -/
  quiet : s.phase = .idle → s.done = false → s.cmd = 0 ∧ ResultsClear s
  /-- At rest `NONCE` and `RCOUNT` agree: 0, or the count of the `SOLVE` in `CMD` (R27, R28). -/
  atRest : s.phase = .idle → s.nonce = s.rcount ∧
    (s.rcount = 0 ∨ ∃ L, decodeWord s.cmd = .legal (Instr.solve L (BitVec.ofNat 8 L.known)) ∧
      s.rcount.toNat = L.count)
  /-- At rest `RES` is 0 at and above `RCOUNT` (R33). -/
  resAbove : s.phase = .idle → ∀ m : Fin 128, s.rcount.toNat ≤ m.val → s.res[m] = 0
  /-- `IDX_OUT` holds an index (R29). -/
  idxRange : s.idxOut.toNat < 7776

/-- `k` steps, up to the first fault or refusal; the same as `Sys2Proof.core.run k` (`Laws/Step.lean`). -/
def runFor : Nat → State → Host.Outcome State Fault Refusal
  | 0, s => .next s
  | k + 1, s =>
    match step s with
    | .next t => runFor k t
    | .fault r => .fault r
    | .refused r => .refused r

/-- The next action is the core sequencer's: its turn stands first in the order, or nothing else does (R70). -/
def CoreTurn (s : State) : Prop := s.agenda = [] ∨ ∃ rest, s.agenda = .core :: rest

/-- The command word of `SOLVE L`, short for `SOLVE L, L−1` (R100). -/
def solveWord (L : MnemonicLength) : Word := encode (Instr.solve L (BitVec.ofNat 8 (L.words - 1)))

/-- The launch premises of a `SOLVE` without error (R283): idle, the `CMD` write comes next and then the core runs
alone, and each of the slots `W[0..L−2]` holds a found WordIndex. -/
structure SolveLaunch (L : MnemonicLength) (s : State) : Prop where
  idle : s.phase = .idle
  order : s.agenda = [.write 0x000 4 (solveWord L)]
  found : ∀ k : Fin 23, k.val < L.words - 1 → s.w[k].toNat < 2048

/-- A run is safe when its first `k` steps meet no fault and no refusal. -/
def SafeFor (k : Nat) (s : State) : Prop := ∃ t : State, runFor k s = .next t

end Sys2Proof.Machine
end

