-- ==== Sys2Proof/Certificates/Slice0/Obligations.lean ====
section
/-! DEFINITION. The statements for the provers, from the numbered rules of the spec. In every statement `agenda`,
`response` and `draws` are the model's own fields (log entries 1 to 3, DESIGN CHOICE); nothing rests on the value of
a free value. A rule that the spec marks as derived or as general knowledge is its own inference; the statements about
such rules say so. -/

open Sys2Proof Sys2Proof.Machine

/-- R90, R92: command words written out from the formats decode to the commands they stand for, and words that
break each condition of R97 are refused under its name (vectors V1 to V9). -/
def Obligations.SpecWordsDecode : Prop :=
  decodeWord 0x000B0C01 = .legal (.solve12 11) ∧
  decodeWord 0x000E0F01 = .legal (.solve15 14) ∧
  decodeWord 0x00111201 = .legal (.solve18 17) ∧
  decodeWord 0x00141501 = .legal (.solve21 20) ∧
  decodeWord 0x00171801 = .legal (.solve24 23) ∧
  decodeWord 0x00000002 = .legal .d2i ∧
  decodeWord 0x001E5F03 = .legal (.i2d 7775) ∧
  decodeWord 0x00000004 = .legal .clr ∧
  decodeWord 0x00000000 = .illegal .unassignedOp ∧
  decodeWord 0x000C0D01 = .illegal .unknownLength ∧
  decodeWord 0x010B0C01 = .illegal .reservedHigh ∧
  decodeWord 0x000B0C11 = .illegal .reservedLow ∧
  decodeWord 0x00000102 = .illegal .operandNotZero ∧
  decodeWord 0x00010004 = .illegal .operandNotZero

/-- R90, R91: decoding the word of any command gives the command back, whatever its operand. -/
def Obligations.DecodeEncodeRoundTrip : Prop :=
  ∀ i : Instr, decodeWord (encode i) = .legal i

/-- R90, R91: a word that decodes to a command is the word of that command, so no bit of it is dropped. -/
def Obligations.EncodeDecodeRoundTrip : Prop :=
  ∀ (c : Word) (i : Instr), decodeWord c = .legal i → encode i = c

/-- R92: a word decodes to a row's command exactly when `c & mask == match`; no word selects two rows; a word that
selects no row is illegal. -/
def Obligations.DecodingFollowsTheOpcodeMap : Prop :=
  (∀ c : Word, ∀ r ∈ opcodeMap,
    (c &&& r.mask = r.pattern ↔ ∃ i, decodeWord c = .legal i ∧ i.mnemonic = r.mnemonic)) ∧
  (∀ c : Word, (∀ r ∈ opcodeMap, c &&& r.mask ≠ r.pattern) ↔ ∃ why, decodeWord c = .illegal why) ∧
  opcodeMap.Pairwise (fun r r' => ∀ c : Word, ¬(c &&& r.mask = r.pattern ∧ c &&& r'.mask = r'.pattern))

/-- R97: the words that are no command. -/
def Obligations.IllegalWordsExactly : Prop :=
  ∀ c : Word, (∃ why, decodeWord c = .illegal why) ↔
    (c.extractLsb' 24 8 ≠ 0 ∨ c.extractLsb' 4 4 ≠ 0 ∨
      (c.extractLsb' 0 4).toNat = 0 ∨ 5 ≤ (c.extractLsb' 0 4).toNat ∨
      ((c.extractLsb' 0 4).toNat = 1 ∧ (c.extractLsb' 8 8).toNat ∉ [12, 15, 18, 21, 24]) ∨
      (((c.extractLsb' 0 4).toNat = 2 ∨ (c.extractLsb' 0 4).toNat = 4) ∧ c.extractLsb' 8 16 ≠ 0))

/-- R99: the assembler's word of a line it takes is the word of the command; it refuses the other lines. -/
def Obligations.AssemblerWordsAreCommandWords : Prop :=
  ∀ line : SourceLine,
    (line.wf = true → ∃ i, line.command = some i ∧ line.word = (encode i).toNat) ∧
    (line.wf = false → line.command = none)

/-- R91, R124: on the core's turn, when `CMD` decodes to a command, the dispatch step, and in a `SOLVE` the
iteration step, is `exec` of that command. -/
def Obligations.StepRunsTheCommandInCmd : Prop :=
  ∀ (s : State) (i : Instr), decodeWord s.cmd = .legal i →
    s.phase = .dispatch ∨ (s.phase = .iter ∧ i.isSolve = true) →
    (s.agenda = [] → step s = exec i s) ∧
    (∀ rest, s.agenda = .core :: rest → step s = exec i { s with agenda := rest })

/-- The model's placing of a command (log entry 9): the step after it is the dispatch step of exactly that command,
in the state R65 leaves. -/
def Obligations.PlacedCommandRunsNext : Prop :=
  ∀ (s : State) (i : Instr), step (s.withFetchWord 32 (encode i).toNat) = exec i (s.accept (encode i))

/-- R22, R23: the fields of `STATUS` and the numbers of the errors. -/
def Obligations.StatusReadsItsFields : Prop :=
  (∀ s : State,
    (s.readReg .status).getLsbD 0 = decide (s.phase ≠ .idle) ∧
    (s.readReg .status).getLsbD 1 = s.done ∧
    (s.readReg .status).getLsbD 2 = decide (s.errCode.code ≠ 0) ∧
    (s.readReg .status).getLsbD 3 = false ∧
    (s.readReg .status).extractLsb' 4 4 = s.errCode.code ∧
    (s.readReg .status).extractLsb' 8 24 = 0) ∧
  ErrCode.none.code = 0 ∧ ErrCode.invalidWord.code = 1 ∧ ErrCode.invalidDiceChar.code = 2 ∧
  ErrCode.lengthMismatch.code = 3 ∧ ErrCode.illegalCmd.code = 4 ∧ ErrCode.indexRange.code = 5

/-- R24, R26 to R33: every register but `STATUS` reads its field, or its word, whole, and the bits above a field
read 0. -/
def Obligations.UnusedRegisterBitsReadZero : Prop :=
  ∀ s : State,
    s.readReg .nonce = s.nonce.setWidth 32 ∧ s.readReg .rcount = s.rcount.setWidth 32 ∧
    s.readReg .idxOut = s.idxOut.setWidth 32 ∧ s.readReg .diceOutHi = s.diceOutHi.setWidth 32 ∧
    (∀ n : Fin 128, s.readReg (.res n) = s.res[n].setWidth 32) ∧
    s.readReg .cmd = s.cmd ∧ s.readReg .diceOutLo = s.diceOutLo ∧
    s.readReg .diceInLo = s.diceInLo ∧ s.readReg .diceInHi = s.diceInHi ∧
    (∀ k : Fin 23, s.readReg (.w k) = s.w[k]) ∧
    (s.readReg .errInfo).toNat = s.errVal.toNat * 256 + s.errPos.toNat ∧
    (s.readReg .nonce).toNat < 256 ∧ (s.readReg .rcount).toNat < 256 ∧
    (s.readReg .idxOut).toNat < 8192 ∧ (s.readReg .diceOutHi).toNat < 256 ∧
    ∀ n : Fin 128, (s.readReg (.res n)).toNat < 2048

/-- R22: the legal combinations of (`BUSY`, `DONE`, `ERR`). -/
def Obligations.LegalStatusCombinations : Prop :=
  ∀ s : State, Inv s →
    (s.busy, s.done, s.err) ∈
      [(false, false, false), (true, false, false), (false, true, false), (false, true, true)]

/-- R38: the output signals equal the flags. -/
def Obligations.OutputsFollowTheStatus : Prop :=
  ∀ s : State, busyOut s = decide (s.phase ≠ .idle) ∧ doneOut s = s.done

/-- R61, R20: the register at each mapped address, that no other address is mapped, and which are writable. -/
def Obligations.AddressMapIsExact : Prop :=
  [0x000, 0x004, 0x008, 0x00C, 0x010, 0x014, 0x018, 0x01C, 0x020, 0x024].map regAt =
    [some .cmd, some .status, some .errInfo, some .nonce, some .rcount, some .idxOut, some .diceOutLo,
      some .diceOutHi, some .diceInLo, some .diceInHi] ∧
  (∀ k : Fin 23, regAt (BitVec.ofNat 10 (0x100 + 4 * k.val)) = some (.w k)) ∧
  (∀ n : Fin 128, regAt (BitVec.ofNat 10 (0x200 + 4 * n.val)) = some (.res n)) ∧
  (∀ a : PortAddr, (regAt a).isSome = true ↔
    (a.toNat ∈ [0x000, 0x004, 0x008, 0x00C, 0x010, 0x014, 0x018, 0x01C, 0x020, 0x024] ∨
      (∃ k, k < 23 ∧ a.toNat = 0x100 + 4 * k) ∨ ∃ n, n < 128 ∧ a.toNat = 0x200 + 4 * n)) ∧
  (∀ a : PortAddr, (∃ r, regAt a = some r ∧ r.writable = true) ↔
    (a.toNat = 0x000 ∨ a.toNat = 0x020 ∨ a.toNat = 0x024 ∨ ∃ k, k < 23 ∧ a.toNat = 0x100 + 4 * k))

/-- R62: a read of an unmapped address is answered `ERR`, a read at rest with the register's current value. -/
def Obligations.ReadAnswersTheCurrentValue : Prop :=
  ∀ (s : State) (a : PortAddr) (rest : List AgentAction), s.agenda = .read a 4 :: rest →
    (regAt a = none → step s = .next { s with agenda := rest, response := some .err }) ∧
    (∀ r, regAt a = some r → s.phase = .idle →
      step s = .next { s with agenda := rest, response := some (.okData (s.readReg r)) })

/-- R62, R67: no read, of any width and at any time, changes a register. -/
def Obligations.ReadsChangeNoRegister : Prop :=
  ∀ (s : State) (a : PortAddr) (size : Nat) (rest : List AgentAction), s.agenda = .read a size :: rest →
    ∃ p d, step s = .next { s with agenda := rest, response := some p, draws := d }

/-- R63: reads while a command runs. `NONCE` and `RES` give a free value, a new one each time; the others their
current value, `STATUS` 1 and the cleared registers 0. -/
def Obligations.ReadsDuringARun : Prop :=
  ∀ (s : State) (a : PortAddr) (r : Reg) (rest : List AgentAction), Inv s → s.phase ≠ .idle →
    s.agenda = .read a 4 :: rest → regAt a = some r →
    ((r = .nonce ∨ ∃ n, r = .res n) →
      step s = .next { s with
        agenda := rest, response := some (.okData (Config.draw s.draws)), draws := s.draws + 1 }) ∧
    (¬(r = .nonce ∨ ∃ n, r = .res n) →
      step s = .next { s with agenda := rest, response := some (.okData (s.readReg r)) }) ∧
    (r = .status → s.readReg r = 0x00000001) ∧
    (r ∈ [.errInfo, .rcount, .idxOut, .diceOutLo, .diceOutHi] → s.readReg r = 0)

/-- R66: an access that is no whole aligned word gets `ERR` and changes nothing. -/
def Obligations.OnlyAlignedWordsAreServed : Prop :=
  ∀ (s : State) (a : PortAddr) (size : Nat) (v : Word) (rest : List AgentAction),
    (size ≠ 4 ∨ a.toNat % 4 ≠ 0) →
    s.agenda = .read a size :: rest ∨ s.agenda = .write a size v :: rest →
    step s = .next { s with agenda := rest, response := some .err }

/-- R64: the writes that are refused, and that they change nothing. -/
def Obligations.RefusedWritesChangeNothing : Prop :=
  ∀ (s : State) (a : PortAddr) (v : Word) (rest : List AgentAction), s.agenda = .write a 4 v :: rest →
    (regAt a = none ∨ (∃ r, regAt a = some r ∧ r.writable = false) ∨ s.phase ≠ .idle) →
    step s = .next { s with agenda := rest, response := some .err }

/-- R64: a write at rest to an operand register stores all 32 bits and changes nothing else. -/
def Obligations.OperandWritesStoreTheWord : Prop :=
  ∀ (s : State) (a : PortAddr) (v : Word) (rest : List AgentAction),
    s.phase = .idle → s.agenda = .write a 4 v :: rest →
    (a.toNat = 0x020 →
      step s = .next { s with agenda := rest, response := some .ok, diceInLo := v }) ∧
    (a.toNat = 0x024 →
      step s = .next { s with agenda := rest, response := some .ok, diceInHi := v }) ∧
    (∀ k : Fin 23, a.toNat = 0x100 + 4 * k.val →
      step s = .next { s with agenda := rest, response := some .ok, w := s.w.set k v })

/-- R65: command acceptance, whatever the word. -/
def Obligations.CommandAcceptance : Prop :=
  ∀ (s : State) (v : Word) (rest : List AgentAction),
    s.phase = .idle → s.agenda = .write 0x000 4 v :: rest →
    step s = .next { s with
      agenda := rest, response := some .ok, cmd := v, phase := .dispatch, done := false,
      errCode := .none, errPos := 0, errVal := 0, nonce := 0, rcount := 0, idxOut := 0,
      diceOutLo := 0, diceOutHi := 0, res := Vector.replicate 128 0 }

/-- R39, R72: while a command runs no host transaction changes a register. -/
def Obligations.HostCannotDisturbARun : Prop :=
  ∀ (s : State) (a : AgentAction) (rest : List AgentAction), s.phase ≠ .idle → s.agenda = a :: rest →
    ((∃ addr size, a = .read addr size) ∨ ∃ addr size v, a = .write addr size v) →
    ∃ p d, step s = .next { s with agenda := rest, response := some p, draws := d }

/-- R270, R271: reset, at any point of the order, replaces every register by its reset value. -/
def Obligations.ResetReplacesTheWholeState : Prop :=
  ∀ (s : State) (rest : List AgentAction), s.agenda = .reset :: rest →
    step s = .next { State.reset with agenda := rest, response := s.response, draws := s.draws }

/-- R37: the reset values. That a step from there changes nothing rests on the empty agenda at reset, which is the
model's choice (log entries 1 and 19): R37 says that the core does nothing until the host writes `CMD`. -/
def Obligations.ResetValues : Prop :=
  State.reset.phase = .idle ∧ (∀ r : Reg, State.reset.readReg r = 0x00000000) ∧
  step State.reset = .next State.reset

/-- R210: `CLR` puts every register to its reset value. -/
def Obligations.ClrRestoresTheResetState : Prop :=
  ∀ s : State, exec .clr s =
    .next { State.reset with agenda := s.agenda, response := s.response, draws := s.draws }

/-- R211, R234: an illegal word is accepted and ends in its dispatch step with `ILLEGAL_CMD`. -/
def Obligations.IllegalWordEndsInError : Prop :=
  ∀ (s : State) (c : Word) (why : IllegalWord), s.phase = .idle → s.agenda = [.write 0x000 4 c] →
    decodeWord c = .illegal why →
    ∃ t : State, runFor 2 s = .next t ∧ t.readReg .status = 0x00000046 ∧
      t = { s with
        agenda := [], response := some .ok, cmd := c, phase := .idle, done := true,
        errCode := .illegalCmd, errPos := 0, errVal := 0, nonce := 0, rcount := 0, idxOut := 0,
        diceOutLo := 0, diceOutHi := 0, res := Vector.replicate 128 0 }

/-- R192, R193: `D2I` converts a string of five valid characters, and reports the first invalid one otherwise. -/
def Obligations.D2iConvertsOrReportsTheFirstBadCharacter : Prop :=
  ∀ s : State,
    let ch : Nat → Byte := fun j => if j < 4 then s.diceInLo.extractLsb' (8 * j) 8 else s.diceInHi.extractLsb' 0 8
    let valid : Byte → Prop := fun c => 0x31 ≤ c.toNat ∧ c.toNat ≤ 0x36
    let d : Nat → Nat := fun j => (ch j).toNat - 0x31
    let x := d 0 * 1296 + d 1 * 216 + d 2 * 36 + d 3 * 6 + d 4
    ((∀ j, j < 5 → valid (ch j)) → x ≤ 7775 ∧
      exec .d2i s = .next { s with idxOut := BitVec.ofNat 13 x, done := true, phase := .idle }) ∧
    (∀ j, j < 5 → ¬valid (ch j) → (∀ i, i < j → valid (ch i)) →
      exec .d2i s = .next { s with
        errCode := .invalidDiceChar, errPos := BitVec.ofNat 8 j, errVal := ch j, done := true,
        phase := .idle })

/-- R194, R195: `I2D` makes the five characters of an index below 7776, and reports any other. -/
def Obligations.I2dConvertsOrReportsTheRange : Prop :=
  ∀ (s : State) (imm16 : BitVec 16),
    let i := imm16.toNat
    let out : Nat → Byte := fun j => BitVec.ofNat 8 (0x31 + i / 6 ^ (4 - j) % 6)
    (i < 7776 → exec (.i2d imm16) s = .next { s with
      diceOutLo := out 3 ++ out 2 ++ out 1 ++ out 0, diceOutHi := out 4, done := true,
      phase := .idle }) ∧
    (7776 ≤ i → exec (.i2d imm16) s = .next { s with
      errCode := .indexRange, errPos := 0, errVal := 0, done := true, phase := .idle })

/-- R196 (which the spec marks as derived): the round trip in both directions, each over two accepted commands:
the host writes `CMD`, the core dispatches, the host carries what it reads from the result registers to the next
command, and the core dispatches again. What the host does second is given as the second agenda (log entry 1). -/
def Obligations.DiceCodecRoundTrip : Prop :=
  (∀ (s : State) (imm16 : BitVec 16), imm16.toNat < 7776 → s.phase = .idle →
    s.agenda = [.write 0x000 4 (encode (.i2d imm16))] →
    ∃ t u : State, runFor 2 s = .next t ∧
      runFor 4 { t with agenda := [.write 0x020 4 (t.readReg .diceOutLo), .write 0x024 4 (t.readReg .diceOutHi),
        .write 0x000 4 (encode .d2i)] } = .next u ∧
      u.readReg .status = 0x00000002 ∧ u.readReg .idxOut = imm16.setWidth 32) ∧
  (∀ s : State, (∀ c ∈ diceChars s, 0x31 ≤ c.toNat ∧ c.toNat ≤ 0x36) → s.phase = .idle →
    s.agenda = [.write 0x000 4 (encode .d2i)] →
    ∃ t u : State, runFor 2 s = .next t ∧
      runFor 2 { t with
        agenda := [.write 0x000 4 (encode (.i2d ((t.readReg .idxOut).setWidth 16)))] } = .next u ∧
      u.readReg .status = 0x00000002 ∧ u.readReg .diceOutLo = s.diceInLo ∧
      u.readReg .diceOutHi = (s.diceInHi.extractLsb' 0 8).setWidth 32)

/-- R197: the boundary values of the codec. -/
def Obligations.DiceCodecBoundaryValues : Prop :=
  (∃ t : State, exec .d2i { State.reset with diceInLo := 0x31313131, diceInHi := 0x00000031 } = .next t ∧
    t.idxOut = 0) ∧
  (∃ t : State, exec .d2i { State.reset with diceInLo := 0x36363636, diceInHi := 0x00000036 } = .next t ∧
    t.idxOut = 7775) ∧
  (∃ t : State, exec (.i2d 0) State.reset = .next t ∧ t.diceOutLo = 0x31313131 ∧ t.diceOutHi = 0x31) ∧
  (∃ t : State, exec (.i2d 7775) State.reset = .next t ∧ t.diceOutLo = 0x36363636 ∧ t.diceOutHi = 0x36) ∧
  decodeWord 0x001E5F03 = .legal (.i2d 7775)

/-- R198: of the indices below the cutoff the host accepts, each WordIndex is reached by exactly three; the others
it rejects. -/
def Obligations.AcceptedRollsAreUnbiased : Prop :=
  (∀ k, k < 2048 → (List.range 7776).countP (fun x => rollWordIndex x == some k) = 3) ∧
  (∀ x, 6144 ≤ x → rollWordIndex x = none)

/-- R100, R31: `LDDICE` puts the five characters where `D2I` reads them, and nothing else changes. -/
def Obligations.LoadDiceSetsTheCharacters : Prop :=
  ∀ (s : State) (c0 c1 c2 c3 c4 : Byte), s.phase = .idle → s.agenda = scriptLddice c0 c1 c2 c3 c4 →
    ∃ t : State, runFor 2 s = .next t ∧ diceChars t = [c0, c1, c2, c3, c4] ∧
      t = { s with
        agenda := [], response := some .ok, diceInLo := c3 ++ c2 ++ c1 ++ c0, diceInHi := c4.setWidth 32 }

/-- R121, R233: a word count other than `L − 1` ends the `SOLVE` of any length with `LENGTH_MISMATCH`, whatever the
slots hold. -/
def Obligations.SolveReportsLengthMismatch : Prop :=
  ∀ (L : MnemonicLength) (wcnt : Byte) (s : State), s.phase = .dispatch → wcnt.toNat ≠ L.words - 1 →
    exec (Instr.solve L wcnt) s = .next { s with
      errCode := .lengthMismatch, errPos := BitVec.ofNat 8 (L.words - 1), errVal := wcnt, done := true,
      phase := .idle }

/-- R122, R231: with the right count, the lowest of the slots `W[0..L−2]` that holds a value of 2048 or more is
reported with `INVALID_WORD`; the slots above it, and those that the command does not read, are free. -/
def Obligations.SolveReportsTheLowestNotFoundSlot : Prop :=
  ∀ (L : MnemonicLength) (wcnt : Byte) (s : State) (k : Fin 23), s.phase = .dispatch →
    wcnt.toNat = L.words - 1 → k.val < L.words - 1 → 2048 ≤ s.w[k].toNat →
    (∀ j : Fin 23, j.val < k.val → s.w[j].toNat < 2048) →
    exec (Instr.solve L wcnt) s = .next { s with
      errCode := .invalidWord, errPos := BitVec.ofNat 8 k.val, errVal := 0, done := true, phase := .idle }

/-- R123 (which the spec marks as derived): with the right count and every slot found, the dispatch step of a
`SOLVE` of any length moves to `ITER` and changes nothing else. The slots from `L − 1` on are free. -/
def Obligations.SolveStartsIterating : Prop :=
  ∀ (L : MnemonicLength) (wcnt : Byte) (s : State), s.phase = .dispatch → wcnt.toNat = L.words - 1 →
    (∀ k : Fin 23, k.val < L.words - 1 → s.w[k].toNat < 2048) →
    exec (Instr.solve L wcnt) s = .next { s with phase := .iter }

/-- R124: an iteration of a `SOLVE` of any length stores the candidate of its nonce and goes to the next one. -/
def Obligations.SolveIterationStoresTheCandidate : Prop :=
  ∀ (L : MnemonicLength) (wcnt : Byte) (s : State), s.phase = .iter → s.nonce.toNat + 1 < L.count →
    let n := s.nonce.toNat
    let F := (s.w.toList.take (L.words - 1)).map (fun w => BitField.mk (w.extractLsb' 0 11).toNat 11)
      ++ [BitField.mk n L.nonceBits]
    let cks := ((sha256 (pack F))[0].toNat &&& L.checkMask) >>> L.checkShift
    exec (Instr.solve L wcnt) s = .next { s with
      res := s.res.setIfInBounds n (BitVec.ofNat 11 ((n <<< L.checksumBits) ||| cks)),
      nonce := BitVec.ofNat 8 (n + 1) }

/-- R125 (which the spec marks as derived): the iteration of the last nonce also writes `RCOUNT` and completes the
command. -/
def Obligations.SolveLastIterationCompletes : Prop :=
  ∀ (L : MnemonicLength) (wcnt : Byte) (s : State), s.phase = .iter → s.nonce.toNat + 1 = L.count →
    let n := s.nonce.toNat
    exec (Instr.solve L wcnt) s = .next { s with
      res := s.res.setIfInBounds n (BitVec.ofNat 11 (candidate L (knownWords L s) n)),
      nonce := BitVec.ofNat 8 L.count, rcount := BitVec.ofNat 8 L.count, done := true, phase := .idle }

/-- R126, R281 (which the spec marks as derived): a `SOLVE` without error ends after one dispatch step and `count`
iterations, not before, in the state of the big-step form. -/
def Obligations.SolveRunReachesTheBigStepState : Prop :=
  ∀ (L : MnemonicLength) (s : State), SolveLaunch L s →
    (∀ k, 1 ≤ k → k < 2 + L.count → ∃ t : State, runFor k s = .next t ∧ t.phase ≠ .idle) ∧
    runFor (2 + L.count) s = .next { s with
      agenda := [], response := some .ok, cmd := solveWord L, phase := .idle, done := true,
      errCode := .none, errPos := 0, errVal := 0, nonce := BitVec.ofNat 8 L.count,
      rcount := BitVec.ofNat 8 L.count, idxOut := 0, diceOutLo := 0, diceOutHi := 0,
      res := Vector.ofFn (fun n : Fin 128 =>
        if n.val < L.count then
          BitVec.ofNat 11 ((n.val <<< L.checksumBits) |||
            ((sha256 (entropyBlock L (knownWords L s) n.val))[0].toNat >>> L.checkShift))
        else 0) }

/-- R70, R72, R130: the same end state is reached whatever reads and writes the host puts between the core steps;
only the port's last answer and the count of draws tell. -/
def Obligations.SolveRunIgnoresInterleavedHostActions : Prop :=
  ∀ (L : MnemonicLength) (s : State) (acts : List AgentAction),
    s.phase = .dispatch → ResultsClear s → s.done = false → s.errCode = .none → s.errPos = 0 → s.errVal = 0 →
    decodeWord s.cmd = .legal (Instr.solve L (BitVec.ofNat 8 (L.words - 1))) →
    (∀ k : Fin 23, k.val < L.words - 1 → s.w[k].toNat < 2048) →
    s.agenda = acts ++ [.core] → AgentAction.reset ∉ acts → acts.count .core = L.count →
    ∃ p d, runFor (acts.length + 1) s =
      .next { solveFinal L s with agenda := [], response := p, draws := d }

/-- R127, R128 (R127 is marked as derived): a `SOLVE` without error gives exactly `count` candidates, the `n`-th
with `n` in its high bits, in ascending order and so pairwise distinct. -/
def Obligations.SolveCandidatesAscend : Prop :=
  ∀ (L : MnemonicLength) (s : State), SolveLaunch L s →
    ∃ t : State, runFor (2 + L.count) s = .next t ∧ t.rcount.toNat = L.count ∧
      (∀ n : Fin 128, n.val < L.count → t.res[n].toNat >>> L.checksumBits = n.val) ∧
      ∀ m n : Fin 128, m.val < n.val → n.val < L.count → t.res[m].toNat < t.res[n].toNat

/-- R130 (which the spec marks as derived): the outcome of a `SOLVE` depends on the slots `W[0..L−2]` and on nothing
else in the state. -/
def Obligations.SolveDependsOnItsSlotsOnly : Prop :=
  ∀ (L : MnemonicLength) (s s' : State), SolveLaunch L s → SolveLaunch L s' →
    (∀ k : Fin 23, k.val < L.words - 1 → s.w[k] = s'.w[k]) →
    ∃ t t' : State, runFor (2 + L.count) s = .next t ∧
      runFor (2 + L.count) s' = .next t' ∧
      ∀ r : Reg, (∀ k, r ≠ .w k) → r ≠ .diceInLo → r ≠ .diceInHi → t.readReg r = t'.readReg r

/-- R176 (which the spec marks as derived): every candidate of a `SOLVE` without error makes a phrase that passes
the checksum validation of R175. -/
def Obligations.SolveIsSound : Prop :=
  ∀ (L : MnemonicLength) (s : State), SolveLaunch L s →
    ∃ t : State, runFor (2 + L.count) s = .next t ∧
      ∀ n : Fin 128, n.val < t.rcount.toNat →
        Bip39Valid L ((knownWords L s).map BitVec.toNat ++ [t.res[n].toNat])

/-- R177 (which the spec marks as derived): the candidates are all the final words that pass, one for each nonce. -/
def Obligations.SolveIsExhaustive : Prop :=
  ∀ (L : MnemonicLength) (s : State), SolveLaunch L s →
    ∃ t : State, runFor (2 + L.count) s = .next t ∧
      ∀ f, f < 2048 →
        (Bip39Valid L ((knownWords L s).map BitVec.toNat ++ [f]) ↔
          f = (t.res.toList.getD (f >>> L.checksumBits) 0).toNat)

/-- R9: the table of the parameters that a length selects. -/
def Obligations.LengthParameterTable : Prop :=
  [MnemonicLength.w12, .w15, .w18, .w21, .w24].map (fun L =>
    [L.words, L.entropyBits, L.entropyBytes, L.checksumBits, L.totalBits, L.nonceBits, L.count,
      L.checkShift, L.checkMask, 11 * (L.words - 1)]) =
  [ [12, 128, 16, 4, 132, 7, 128, 4, 0xF0, 121],
    [15, 160, 20, 5, 165, 6, 64, 3, 0xF8, 154],
    [18, 192, 24, 6, 198, 5, 32, 2, 0xFC, 187],
    [21, 224, 28, 7, 231, 4, 16, 1, 0xFE, 220],
    [24, 256, 32, 8, 264, 3, 8, 0, 0xFF, 253] ]

/-- R151: the accumulator of the reference implementation gives the bytes of `Pack`, ends with no bit left, and holds
fewer than 8 bits between two fields. -/
def Obligations.AccumulatorComputesPack : Prop :=
  ∀ F : List BitField, (∀ f ∈ F, 1 ≤ f.width ∧ f.value < 2 ^ f.width) →
    (packByAccumulator F).nbits ≤ 7 ∧
    (packByAccumulator F).acc < 2 ^ (packByAccumulator F).nbits ∧
    (totalWidth F % 8 = 0 → (packByAccumulator F).ent = pack F ∧ (packByAccumulator F).nbits = 0)

/-- R152, R153: the stream of a `SOLVE` ends byte-aligned, and its block has `entropy_bytes` bytes. -/
def Obligations.EntropyBlockHasItsLength : Prop :=
  ∀ (L : MnemonicLength) (ws : List Word) (n : Nat), ws.length = L.words - 1 →
    11 * (L.words - 1) + L.nonceBits = L.entropyBits ∧ L.entropyBits % 8 = 0 ∧
    totalWidth (blockFields L ws n) = L.entropyBits ∧
    (entropyBlock L ws n).length = L.entropyBytes

/-- R156 (which the spec marks as derived): the nonce changes only the last byte of the block, which is the low bits
of the last known word above the nonce. -/
def Obligations.NonceChangesOnlyTheLastByte : Prop :=
  ∀ (L : MnemonicLength) (ws : List Word) (w : Word) (n : Nat), ws.length + 1 = L.words - 1 → n < L.count →
    (entropyBlock L (ws ++ [w]) n).take (L.entropyBytes - 1) =
      (entropyBlock L (ws ++ [w]) 0).take (L.entropyBytes - 1) ∧
    (entropyBlock L (ws ++ [w]) n).getLast? =
      some (BitVec.ofNat 8 (((w.toNat % 2 ^ (8 - L.nonceBits)) <<< L.nonceBits) ||| n))

/-- R155 (which the spec marks as derived): the entropy of a whole phrase is the block of its first `L − 1` words
and the high bits of the last one, whose low bits are the phrase's checksum. -/
def Obligations.PhraseEntropyIsTheEntropyBlock : Prop :=
  ∀ (L : MnemonicLength) (ws : List Word) (f : Nat), ws.length = L.words - 1 → (∀ w ∈ ws, w.toNat < 2048) →
    f < 2048 →
    phraseEntropy L (ws.map BitVec.toNat ++ [f]) = entropyBlock L ws (f >>> L.checksumBits) ∧
    phraseNumber (ws.map BitVec.toNat ++ [f]) &&& (2 ^ L.checksumBits - 1) = f % 2 ^ L.checksumBits

/-- R172: the checksum is the top `checksum_bits` bits of the first digest byte. -/
def Obligations.ChecksumIsTheTopBits : Prop :=
  ∀ (L : MnemonicLength) (h0 : Byte),
    checksumOf L h0 = (h0.toNat &&& (((1 <<< L.checksumBits) - 1) <<< L.checkShift)) >>> L.checkShift ∧
    checksumOf L h0 = h0.toNat >>> (8 - L.checksumBits) ∧ checksumOf L h0 < 2 ^ L.checksumBits

/-- R173: a candidate is the nonce above the checksum, without overlap, and is a WordIndex. -/
def Obligations.CandidateIsAWordIndex : Prop :=
  ∀ (L : MnemonicLength) (n cks : Nat), n < L.count → cks < 2 ^ L.checksumBits →
    assemble L n cks = (n <<< L.checksumBits) ||| cks ∧
    assemble L n cks = n * 2 ^ L.checksumBits + cks ∧ assemble L n cks ≤ 2047

/-- R227 (which the spec marks as general knowledge; log entry 4): the check values of `SHA256`. -/
def Obligations.Sha256CheckValues : Prop :=
  let hex : List Byte → Nat := fun m => (sha256 m).toList.foldl (fun x b => x * 256 + b.toNat) 0
  hex [] = 0xe3b0c44298fc1c149afbf4c8996fb92427ae41e4649b934ca495991b7852b855 ∧
  hex [0x61, 0x62, 0x63] = 0xba7816bf8f01cfea414140de5dae2223b00361a396177a9cb410ff61f20015ad ∧
  hex (List.replicate 16 0x00) = 0x374708fff7719dd5979ec875d56cd2286f6d3cf7ec317a3b25632aab28ec37bb ∧
  hex (List.replicate 32 0x00) = 0x66687aadf862bd776c8fc18b8e9f8e20089714856ee233b3902a591d0d5f2925 ∧
  hex (List.replicate 16 0xFF) = 0x5ac6a5945f16500911219129984ba8b387a06f24fe383ce4e81a73294065461b

/-- The invariant holds at reset. -/
def Obligations.InvariantHoldsAtReset : Prop := Inv State.reset

/-- The invariant is kept by every step from every state that has it: host transactions, core steps and reset, in
any order. -/
def Obligations.EveryStepKeepsTheInvariant : Prop :=
  ∀ s t : State, Inv s → step s = .next t → Inv t

/-- No run is stuck: from every state with the invariant a run of any number of steps meets no fault and no refusal
(part 1 of 93_implementation_defined.md: no `stuck` state, no `fault` that halts the core). -/
def Obligations.NoRunIsStuck : Prop :=
  ∀ (s : State) (k : Nat), Inv s → SafeFor k s

/-- R280, R281: once the host's part of the order is over, every run ends within 129 core steps. Fairness is the
core's turn once the agenda is empty (log entry 18), and the bound is that of the sequential reference sequencer (log
entry 11): both are the model's choice. -/
def Obligations.EveryRunEnds : Prop :=
  ∀ s : State, Inv s →
    ∃ t : State, runFor (s.agenda.length + 129) s = .next t ∧ t.phase = .idle ∧ t.agenda = []

/-- R281, R282: every command but a `SOLVE` ends with its dispatch step, and so does an illegal word. -/
def Obligations.OtherCommandsEndInOneStep : Prop :=
  ∀ s : State, s.phase = .dispatch → CoreTurn s →
    (∀ L n, decodeWord s.cmd ≠ .legal (Instr.solve L n)) →
    ∃ t : State, step s = .next t ∧ t.phase = .idle

/-- R37, R248: in `IDLE` the core does nothing. -/
def Obligations.IdleCoreDoesNothing : Prop :=
  ∀ s : State, s.phase = .idle → s.agenda = [] → step s = .next s

/-- R34, R65: only an accepted `CMD` write starts a run. -/
def Obligations.OnlyACommandWriteStartsARun : Prop :=
  ∀ s t : State, step s = .next t → s.phase = .idle → t.phase ≠ .idle →
    ∃ v rest, s.agenda = .write 0x000 4 v :: rest ∧ t.phase = .dispatch ∧ t.cmd = v

/-- R30, R31, R39: the operand registers change only by an accepted write to one of them, by `CLR` and by reset. -/
def Obligations.OperandRegistersHaveTheirWriters : Prop :=
  ∀ s t : State, step s = .next t →
    (t.w ≠ s.w ∨ t.diceInLo ≠ s.diceInLo ∨ t.diceInHi ≠ s.diceInHi) →
    (s.phase = .idle ∧ ∃ a v rest r, s.agenda = .write a 4 v :: rest ∧ regAt a = some r ∧
      (r = .diceInLo ∨ r = .diceInHi ∨ ∃ k, r = .w k)) ∨
    (∃ rest, s.agenda = .reset :: rest) ∨
    (s.phase = .dispatch ∧ CoreTurn s ∧ decodeWord s.cmd = .legal .clr)

/-- R230, R236: an error is raised only by a dispatch step, under the condition of its row. -/
def Obligations.ErrorsComeFromTheirCauses : Prop :=
  ∀ s t : State, step s = .next t → t.errCode ≠ s.errCode → t.errCode ≠ .none →
    s.phase = .dispatch ∧ CoreTurn s ∧ t.phase = .idle ∧
    (t.errCode = .illegalCmd → ∃ why, decodeWord s.cmd = .illegal why) ∧
    (t.errCode = .lengthMismatch →
      ∃ L n, decodeWord s.cmd = .legal (Instr.solve L n) ∧ n.toNat ≠ L.words - 1) ∧
    (t.errCode = .invalidWord →
      ∃ L n, decodeWord s.cmd = .legal (Instr.solve L n) ∧ n.toNat = L.words - 1 ∧
        ∃ w ∈ knownWords L s, 2048 ≤ w.toNat) ∧
    (t.errCode = .invalidDiceChar →
      decodeWord s.cmd = .legal .d2i ∧ ∃ c ∈ diceChars s, c.toNat < 0x31 ∨ 0x36 < c.toNat) ∧
    (t.errCode = .indexRange → ∃ i, decodeWord s.cmd = .legal (.i2d i) ∧ 7776 ≤ i.toNat)

/-- R24, R30, R31, R62, R64, R65: a word written at rest to a writable register is read back unchanged by the next
transaction, which for `CMD` comes while its command runs. The answer stands in `response` (log entry 2). -/
def Obligations.ReadAfterWriteReturnsTheWord : Prop :=
  ∀ (s : State) (a : PortAddr) (r : Reg) (v : Word) (rest : List AgentAction),
    s.phase = .idle → regAt a = some r → r.writable = true →
    s.agenda = .write a 4 v :: .read a 4 :: rest →
    ∃ t : State, runFor 2 s = .next t ∧ t.response = some (.okData v) ∧ t.readReg r = v ∧ t.agenda = rest
end

