-- ==== Sys2Proof/Laws/Bits.lean ====
section
/-! SUPPORT. Bit vectors as numbers: concatenation, field extraction and single bits, so that a goal about fields
turns into one for `omega`. -/

namespace Sys2Proof

/-- `{a ‖ b} = a · 2^n + b` (R12). -/
theorem append_toNat {m n : Nat} (x : BitVec m) (y : BitVec n) : (x ++ y).toNat = x.toNat * 2 ^ n + y.toNat := by
  rw [BitVec.toNat_append, Nat.shiftLeft_eq, mul_comm, ← Nat.two_pow_add_eq_or_of_lt y.isLt]

/-- A field of a value as a quotient and a remainder (R12). -/
theorem extract_toNat {w : Nat} (c : BitVec w) (lo n : Nat) :
    (c.extractLsb' lo n).toNat = c.toNat / 2 ^ lo % 2 ^ n := by
  simp [BitVec.extractLsb'_toNat, Nat.shiftRight_eq_div_pow]

/-- A bit of a value as a remainder (R12). -/
theorem bit_eq_decide {w : Nat} (v : BitVec w) (i : Nat) :
    v.getLsbD i = decide (v.toNat / 2 ^ i % 2 = 1) := by
  simp [BitVec.getLsbD, Nat.testBit_eq_decide_div_mod_eq]

/-- An OR below a shift merges no bits. -/
theorem shiftLeft_or_eq_add (a n b : Nat) (h : b < 2 ^ n) : (a <<< n) ||| b = a * 2 ^ n + b := by
  rw [Nat.shiftLeft_eq, mul_comm, ← Nat.two_pow_add_eq_or_of_lt h]

end Sys2Proof
end

