-- ==== Sys2Proof/Laws/Decode.lean ====
section
/-! SUPPORT. The decoder and the encoder: the words as numbers, the fields a word splits into, the word of each
format decoded, and everything a decoded word must be. -/

namespace Sys2Proof

/-! ### Commands -/

/-- A command is a `SOLVE`, `D2I`, `I2D` or `CLR` (R2). -/
theorem instr_cases (i : Instr) :
    (∃ L n, i = Instr.solve L n) ∨ i = .d2i ∨ (∃ x, i = .i2d x) ∨ i = .clr := by
  cases i with
  | solve12 n => exact .inl ⟨.w12, n, rfl⟩
  | solve15 n => exact .inl ⟨.w15, n, rfl⟩
  | solve18 n => exact .inl ⟨.w18, n, rfl⟩
  | solve21 n => exact .inl ⟨.w21, n, rfl⟩
  | solve24 n => exact .inl ⟨.w24, n, rfl⟩
  | d2i => exact .inr (.inl rfl)
  | i2d x => exact .inr (.inr (.inl ⟨x, rfl⟩))
  | clr => exact .inr (.inr (.inr rfl))

theorem solve_injective {L L' : MnemonicLength} {n n' : Byte} (h : Instr.solve L n = Instr.solve L' n') :
    L = L' ∧ n = n' := by
  cases L <;> cases L' <;> simp_all [Instr.solve]

@[simp] theorem isSolve_solve (L : MnemonicLength) (n : Byte) : (Instr.solve L n).isSolve = true := by
  cases L <;> rfl

/-- `LEN` is the plain number of words (R93). -/
theorem ofNat?_eq_some {n : Nat} {L : MnemonicLength} : MnemonicLength.ofNat? n = some L ↔ n = L.words := by
  unfold MnemonicLength.ofNat?
  cases L <;> (split_ifs <;> simp [MnemonicLength.words] <;> omega)

/-! ### The words of the three formats as numbers (R90) -/

theorem encodeS_toNat (wcnt len : Byte) : (encodeS wcnt len).toNat = wcnt.toNat * 65536 + len.toNat * 256 + 1 := by
  simp only [encodeS, append_toNat, BitVec.toNat_ofNat]; omega

theorem encodeI_toNat (imm16 : BitVec 16) : (encodeI imm16).toNat = imm16.toNat * 256 + 3 := by
  simp only [encodeI, append_toNat, BitVec.toNat_ofNat]; omega

theorem encodeZ_toNat (op : BitVec 4) : (encodeZ op).toNat = op.toNat := by
  simp only [encodeZ, append_toNat, BitVec.toNat_ofNat]; omega

theorem encode_solve (L : MnemonicLength) (n : Byte) :
    encode (Instr.solve L n) = encodeS n (BitVec.ofNat 8 L.words) := by
  cases L <;> rfl

/-! ### The fields of a word (R90) -/

/-- A word is its five byte-aligned fields. -/
theorem word_eq_fields (c : Word) :
    c.toNat = (highReserved c).toNat * 16777216 + (wcntField c).toNat * 65536 + (lenField c).toNat * 256
      + (lowReserved c).toNat * 16 + (opField c).toNat := by
  simp only [highReserved, wcntField, lenField, lowReserved, opField, extract_toNat]
  have := c.isLt
  omega

/-- `IMM16` lies over `WCNT` and `LEN`. -/
theorem imm16_eq_fields (c : Word) : (imm16Field c).toNat = (wcntField c).toNat * 256 + (lenField c).toNat := by
  simp only [imm16Field, wcntField, lenField, extract_toNat]
  omega

/-- A word of format S goes to the lengths (R91). -/
theorem decode_encodeS (wcnt len : Byte) : decodeWord (encodeS wcnt len) = decodeSolve len wcnt := by
  have h1 : highReserved (encodeS wcnt len) = 0 := by
    apply BitVec.eq_of_toNat_eq; simp only [highReserved, extract_toNat, encodeS_toNat]; simp; omega
  have h2 : lowReserved (encodeS wcnt len) = 0 := by
    apply BitVec.eq_of_toNat_eq; simp only [lowReserved, extract_toNat, encodeS_toNat]; simp; omega
  have h3 : opField (encodeS wcnt len) = 1 := by
    apply BitVec.eq_of_toNat_eq; simp only [opField, extract_toNat, encodeS_toNat]; simp; omega
  have h4 : lenField (encodeS wcnt len) = len := by
    apply BitVec.eq_of_toNat_eq; simp only [lenField, extract_toNat, encodeS_toNat]; simp; omega
  have h5 : wcntField (encodeS wcnt len) = wcnt := by
    apply BitVec.eq_of_toNat_eq; simp only [wcntField, extract_toNat, encodeS_toNat]; simp; omega
  simp [decodeWord, h1, h2, h3, h4, h5]

/-- A word of format I is an `I2D` (R91). -/
theorem decode_encodeI (imm16 : BitVec 16) : decodeWord (encodeI imm16) = .legal (.i2d imm16) := by
  have h1 : highReserved (encodeI imm16) = 0 := by
    apply BitVec.eq_of_toNat_eq; simp only [highReserved, extract_toNat, encodeI_toNat]; simp; omega
  have h2 : lowReserved (encodeI imm16) = 0 := by
    apply BitVec.eq_of_toNat_eq; simp only [lowReserved, extract_toNat, encodeI_toNat]; simp; omega
  have h3 : opField (encodeI imm16) = 3 := by
    apply BitVec.eq_of_toNat_eq; simp only [opField, extract_toNat, encodeI_toNat]; simp; omega
  have h5 : imm16Field (encodeI imm16) = imm16 := by
    apply BitVec.eq_of_toNat_eq; simp only [imm16Field, extract_toNat, encodeI_toNat]; simp; omega
  simp [decodeWord, h1, h2, h3, h5]

/-- The lengths of the opcode map are those of R93. -/
theorem decodeSolve_words (L : MnemonicLength) (n : Byte) :
    decodeSolve (BitVec.ofNat 8 L.words) n = .legal (Instr.solve L n) := by
  cases L <;> rfl

/-- Everything a word that decodes to a command is (R91). -/
theorem decode_legal_cases {c : Word} {i : Instr} (h : decodeWord c = .legal i) :
    highReserved c = 0 ∧ lowReserved c = 0 ∧
    ((opField c = 1 ∧ ∃ L, MnemonicLength.ofNat? (lenField c).toNat = some L ∧ i = Instr.solve L (wcntField c)) ∨
      (opField c = 2 ∧ imm16Field c = 0 ∧ i = .d2i) ∨ (opField c = 3 ∧ i = .i2d (imm16Field c)) ∨
      (opField c = 4 ∧ imm16Field c = 0 ∧ i = .clr)) := by
  unfold decodeWord at h
  split_ifs at h with h1 h2 h3 h4 h5 h6 h7 h8 <;> simp_all [decodeSolve]
  · split at h <;> simp_all

/-- A 32-bit table word is the word itself. -/
@[simp] theorem tableWord_toNat (c : Word) : tableWord 32 c.toNat = c := by
  apply BitVec.eq_of_toNat_eq
  have := c.isLt
  simp [tableWord]
  omega

end Sys2Proof
end

