-- ==== Sys2Proof/Laws/Operands.lean ====
section
/-! SUPPORT. The operands: the numbers a length selects, the known words as slots, the not-found check, and the lanes
and digits of a dice string. -/

namespace Sys2Proof

theorem known_eq (L : MnemonicLength) : L.known = L.words - 1 := rfl

/-- No length needs more than 23 slots (R11 `NSLOTS`). -/
theorem known_le (L : MnemonicLength) : L.known ≤ 23 := by cases L <;> decide

/-- No length has more than 128 candidates (R11 `NRES`). -/
theorem count_le (L : MnemonicLength) : L.count ≤ 128 := by cases L <;> decide

/-- `nonce_bits + checksum_bits = 11` (R174). -/
theorem count_mul_checksum (L : MnemonicLength) : L.count * 2 ^ L.checksumBits = 2048 := by cases L <;> decide

namespace Machine

/-! ### The known words of a `SOLVE` -/

@[simp] theorem knownWords_length (L : MnemonicLength) (s : State) : (knownWords L s).length = L.known := by
  simp [knownWords, known_le]

theorem knownWords_get (L : MnemonicLength) (s : State) (k : Nat) (h : k < (knownWords L s).length) :
    (knownWords L s)[k] = s.w[k]'(by have := known_le L; rw [knownWords_length] at h; omega) := by
  simp [knownWords]

/-- The known words are the slots below `L − 1` (R120). -/
theorem mem_knownWords {L : MnemonicLength} {s : State} {v : Word} :
    v ∈ knownWords L s ↔ ∃ k : Fin 23, k.val < L.known ∧ s.w[k] = v := by
  rw [List.mem_iff_getElem]
  constructor
  · rintro ⟨k, h, rfl⟩
    have h' := h
    rw [knownWords_length] at h'
    exact ⟨⟨k, by have := known_le L; omega⟩, h', (knownWords_get _ _ _ _).symm⟩
  · rintro ⟨k, hk, rfl⟩
    exact ⟨k, by rw [knownWords_length]; exact hk, knownWords_get _ _ _ _⟩

theorem isNotFound_iff (v : Word) : isNotFound v = true ↔ 2048 ≤ v.toNat := decide_eq_true_iff

theorem isNotFound_eq_false_iff (v : Word) : isNotFound v = false ↔ v.toNat < 2048 := by
  rw [← Bool.not_eq_true, isNotFound_iff]; omega

theorem firstNotFound_none {ws : List Word} : firstNotFound ws = none ↔ ∀ w ∈ ws, w.toNat < 2048 := by
  simp only [firstNotFound, List.findIdx?_eq_none_iff, isNotFound_eq_false_iff]

theorem firstNotFound_some {ws : List Word} {k : Nat} :
    firstNotFound ws = some k ↔
      ∃ h : k < ws.length, 2048 ≤ ws[k].toNat ∧ ∀ j (hj : j < k), (ws[j]).toNat < 2048 := by
  simp only [firstNotFound, List.findIdx?_eq_some_iff_getElem, isNotFound_iff, Nat.not_le]

/-! ### Lanes and digits of a dice string -/

theorem lane_packLanes (c0 c1 c2 c3 : Byte) :
    lane (packLanes c0 c1 c2 c3) 0 = c0 ∧ lane (packLanes c0 c1 c2 c3) 1 = c1 ∧
      lane (packLanes c0 c1 c2 c3) 2 = c2 ∧ lane (packLanes c0 c1 c2 c3) 3 = c3 := by
  refine ⟨?_, ?_, ?_, ?_⟩ <;>
    (apply BitVec.eq_of_toNat_eq; simp only [lane, packLanes, extract_toNat, append_toNat]; omega)

theorem packLanes_lane (v : Word) : packLanes (lane v 0) (lane v 1) (lane v 2) (lane v 3) = v := by
  apply BitVec.eq_of_toNat_eq
  simp only [lane, packLanes, extract_toNat, append_toNat]
  omega

@[simp] theorem lane_setWidth (c : Byte) : lane (c.setWidth 32) 0 = c := by
  apply BitVec.eq_of_toNat_eq
  simp only [lane, extract_toNat, BitVec.toNat_setWidth]
  omega

/-- The valid codes are 0x31 to 0x36 (R190). -/
theorem isDiceChar_iff (c : Byte) : isDiceChar c = true ↔ 0x31 ≤ c.toNat ∧ c.toNat ≤ 0x36 := by
  unfold isDiceChar Config.charOne Config.diceRadix
  rw [decide_eq_true_iff]
  omega

theorem digitValue_digitChar (d : Nat) (h : d < 6) : digitValue (digitChar d) = d := by
  simp [digitValue, digitChar, Config.charOne]; omega

theorem isDiceChar_digitChar (d : Nat) (h : d < 6) : isDiceChar (digitChar d) = true := by
  rw [isDiceChar_iff]; simp [digitChar, Config.charOne]; omega

theorem digitChar_digitValue (c : Byte) (h : isDiceChar c = true) : digitChar (digitValue c) = c := by
  rw [isDiceChar_iff] at h
  apply BitVec.eq_of_toNat_eq
  simp [digitValue, digitChar, Config.charOne]
  omega

end Machine

end Sys2Proof
end

