-- ==== Sys2Proof/Laws/Dice.lean ====
section
/-! SUPPORT. The Dice Index Codec: what a scan gives on valid characters and at the first invalid one, and the digits
of an index. -/

namespace Sys2Proof.Machine

/-- A string of valid characters is its base-6 number, accumulated from the first character (R192). -/
theorem scanDice_valid : ∀ (cs : List Byte) (pos acc : Nat), (∀ c ∈ cs, isDiceChar c = true) →
    scanDice pos acc cs = .index (cs.foldl (fun a c => a * 6 + digitValue c) acc)
  | [], _, _, _ => rfl
  | c :: cs, pos, acc, h => by
    simp only [scanDice, h c (by simp), if_true, List.foldl_cons]
    exact scanDice_valid cs _ _ (fun c hc => h c (by simp [hc]))

/-- The scan stops at the first invalid character (R193). -/
theorem scanDice_invalid : ∀ (cs : List Byte) (pos acc j : Nat) (hj : j < cs.length), isDiceChar cs[j] = false →
    (∀ i (_ : i < j), isDiceChar cs[i] = true) → scanDice pos acc cs = .invalid (pos + j) cs[j]
  | c :: cs, pos, acc, 0, _, h, _ => by
    simp at h
    simp [scanDice, h]
  | c :: cs, pos, acc, j + 1, hj, h, hv => by
    have h0 := hv 0 (by omega)
    simp at h0
    simp only [scanDice, h0, if_true]
    rw [scanDice_invalid cs (pos + 1) _ j (by simpa using hj) (by simpa using h)
      (fun i hi => by have := hv (i + 1) (by omega); simpa using this)]
    simp
    omega

/-- The five digits of an index, most significant first (R194). -/
theorem diceString_eq (i : Nat) :
    diceString i = [digitChar (i / 1296 % 6), digitChar (i / 216 % 6), digitChar (i / 36 % 6),
      digitChar (i / 6 % 6), digitChar (i % 6)] := by
  simp [diceString, diceLoop, Config.diceDigits, Config.diceRadix, Nat.div_div_eq_div_mul]

/-- Everything `D2I` does. -/
theorem execD2i_cases (s : State) :
    (∃ x, scanDice 0 0 (diceChars s) = .index x ∧
      execD2i s = .next ({ s with idxOut := BitVec.ofNat 13 x } : State).complete) ∨
    ∃ pos c, scanDice 0 0 (diceChars s) = .invalid pos c ∧
      execD2i s = .next (s.raise .invalidDiceChar (BitVec.ofNat 8 pos) c) := by
  unfold execD2i
  cases h : scanDice 0 0 (diceChars s) with
  | index x => exact .inl ⟨x, rfl, rfl⟩
  | invalid pos c => exact .inr ⟨pos, c, rfl, rfl⟩

/-- Everything `I2D` does. -/
theorem execI2d_cases (imm16 : BitVec 16) (s : State) :
    (7776 ≤ imm16.toNat ∧ execI2d imm16 s = .next (s.raise .indexRange 0 0)) ∨
    (imm16.toNat < 7776 ∧ ∃ lo hi, execI2d imm16 s =
      .next ({ s with diceOutLo := lo, diceOutHi := hi } : State).complete) := by
  unfold execI2d
  by_cases h : Config.diceSpace ≤ imm16.toNat
  · exact .inl ⟨h, by simp [h]⟩
  · exact .inr ⟨Nat.lt_of_not_le h, _, _, if_neg h⟩

end Sys2Proof.Machine
end

