-- ==== Sys2Proof/Laws/Packer.lean ====
section
/-! SUPPORT. The packer: streams and widths field by field, a number as bytes from the low end, and what taking whole
bytes out of the accumulator does. -/

namespace Sys2Proof.Machine

theorem totalWidth_snoc (F : List BitField) (f : BitField) : totalWidth (F ++ [f]) = totalWidth F + f.width := by
  simp [totalWidth]

theorem streamNumber_snoc (F : List BitField) (f : BitField) (h : f.value < 2 ^ f.width) :
    streamNumber (F ++ [f]) = streamNumber F * 2 ^ f.width + f.value := by
  simp only [streamNumber, List.foldl_append, List.foldl_cons, List.foldl_nil, shiftLeft_or_eq_add _ _ _ h]

/-- A stream of fields that fit is as wide as its fields together (R150). -/
theorem streamNumber_lt (F : List BitField) (h : ∀ f ∈ F, f.value < 2 ^ f.width) :
    streamNumber F < 2 ^ totalWidth F := by
  induction F using List.reverseRecOn with
  | nil => simp [streamNumber, totalWidth]
  | append_singleton F f ih =>
    have hf := h f (by simp)
    have := ih (fun g hg => h g (by simp [hg]))
    rw [streamNumber_snoc _ _ hf, totalWidth_snoc, Nat.pow_add]
    nlinarith [Nat.two_pow_pos f.width]

@[simp] theorem bigEndianBytes_length (k S : Nat) : (bigEndianBytes k S).length = k := by simp [bigEndianBytes]

theorem bigEndianBytes_get (k S j : Nat) (h : j < (bigEndianBytes k S).length) :
    (bigEndianBytes k S)[j] = BitVec.ofNat 8 (S / 2 ^ (8 * k - 8 - 8 * j)) := by
  simp [bigEndianBytes, Nat.shiftRight_eq_div_pow]

/-- One byte more at the low end. -/
theorem bigEndianBytes_succ (k S : Nat) :
    bigEndianBytes (k + 1) S = bigEndianBytes k (S / 256) ++ [BitVec.ofNat 8 S] := by
  apply List.ext_getElem
  · simp
  · intro j h1 h2
    rw [bigEndianBytes_get]
    by_cases hj : j < k
    · rw [List.getElem_append_left (by rw [bigEndianBytes_length]; exact hj), bigEndianBytes_get,
        Nat.div_div_eq_div_mul, show (256 : Nat) = 2 ^ 8 by norm_num, ← Nat.pow_add]
      congr 3
      omega
    · rw [bigEndianBytes_length] at h1
      obtain rfl : j = k := by omega
      rw [List.getElem_append_right (by simp)]
      simp [show 8 * (j + 1) - 8 - 8 * j = 0 by omega]

/-- Taking the whole bytes out of an accumulator that holds the low bits of `S` (R151). -/
theorem flushBytes_spec : ∀ (fuel : Nat) (a : Accumulator) (S : Nat), a.nbits ≤ 8 * fuel + 7 →
    a.ent = bigEndianBytes a.ent.length (S / 2 ^ a.nbits) → a.acc = S % 2 ^ a.nbits →
    (flushBytes fuel a).nbits = a.nbits % 8 ∧
    (flushBytes fuel a).acc = S % 2 ^ (flushBytes fuel a).nbits ∧
    (flushBytes fuel a).ent.length = a.ent.length + a.nbits / 8 ∧
    (flushBytes fuel a).ent = bigEndianBytes (flushBytes fuel a).ent.length (S / 2 ^ (flushBytes fuel a).nbits)
  | 0, a, S, h1, h3, h4 => by
    simp only [flushBytes]
    exact ⟨by omega, h4, by omega, h3⟩
  | fuel + 1, a, S, h1, h3, h4 => by
    simp only [flushBytes]
    by_cases h8 : 8 ≤ a.nbits
    · rw [if_pos h8]
      obtain ⟨m, hm⟩ : ∃ m, a.nbits = m + 8 := ⟨a.nbits - 8, by omega⟩
      rw [hm] at h3 h4
      have e1 : a.acc &&& (2 ^ m - 1) = S % 2 ^ m := by
        rw [Nat.and_two_pow_sub_one_eq_mod, h4, Nat.mod_mod_of_dvd]
        exact pow_dvd_pow 2 (by omega)
      have e2 : BitVec.ofNat 8 ((a.acc >>> m) &&& 0xFF) = BitVec.ofNat 8 (S / 2 ^ m) := by
        rw [show (0xFF : Nat) = 2 ^ 8 - 1 by norm_num, Nat.and_two_pow_sub_one_eq_mod,
          Nat.shiftRight_eq_div_pow, h4]
        apply BitVec.eq_of_toNat_eq
        simp only [BitVec.toNat_ofNat, Nat.mod_mod]
        rw [Nat.pow_add, Nat.mod_mul_right_div_self, Nat.mod_mod]
      have ih := flushBytes_spec fuel
        { acc := a.acc &&& (2 ^ (a.nbits - 8) - 1)
          nbits := a.nbits - 8
          ent := a.ent ++ [BitVec.ofNat 8 ((a.acc >>> (a.nbits - 8)) &&& 0xFF)] } S
      simp only [hm, Nat.add_sub_cancel] at ih ⊢
      obtain ⟨b2, b3, b4, b5⟩ := ih (by omega) (by
        rw [List.length_append, List.length_singleton, bigEndianBytes_succ, e2, Nat.div_div_eq_div_mul,
          show (256 : Nat) = 2 ^ 8 by norm_num, ← Nat.pow_add, ← h3]) e1
      refine ⟨by omega, b3, ?_, b5⟩
      rw [b4]
      simp
      omega
    · rw [if_neg h8]
      exact ⟨by omega, h4, by omega, h3⟩

/-- The known words take 11 bits each (R152). -/
theorem totalWidth_words (ws : List Word) :
    totalWidth (ws.map fun w => ⟨(w.extractLsb' 0 11).toNat, Config.wordBits⟩) = 11 * ws.length := by
  induction ws with
  | nil => rfl
  | cons w ws ih => simp [totalWidth, Config.wordBits] at *; omega

/-- Every field of a block fits (R154). -/
theorem blockFields_fit (L : MnemonicLength) (ws : List Word) (n : Nat) (hn : n < L.count) :
    ∀ f ∈ blockFields L ws n, f.value < 2 ^ f.width := by
  intro f hf
  simp only [blockFields, List.mem_append, List.mem_map, List.mem_singleton] at hf
  rcases hf with ⟨w, _, rfl⟩ | rfl
  · exact (w.extractLsb' 0 11).isLt
  · exact hn

end Sys2Proof.Machine
end

