-- ==== Sys2Proof/Laws/PerInstr.lean ====
section
/-! SUPPORT. The family `TableRow`: the word of each command selects the row of the opcode map that bears the
command's mnemonic (R92). -/

namespace Sys2Proof.Laws.TableRow

/-- The command's word selects its own row. -/
def Statement (i : Instr) : Prop := ∃ r ∈ opcodeMap, r.mnemonic = i.mnemonic ∧ r.selects (encode i) = true

/-- A word of format S selects the row of its length, whatever `WCNT`: the mask takes `WCNT` out. -/
theorem selects_of_masked {r : OpcodeRow} {c : Word} (h : c &&& r.mask = r.pattern) : r.selects c = true := by
  simp [OpcodeRow.selects, h]

theorem maskedS (wcnt len : Byte) : encodeS wcnt len &&& 0xFF00FFFF = encodeS 0 len := by
  have e : (0xFF00FFFF : Word) = BitVec.allOnes 8 ++ 0#8 ++ BitVec.allOnes 8 ++ BitVec.allOnes 4 ++ BitVec.allOnes 4 := by
    decide
  rw [encodeS, e, BitVec.and_append, BitVec.and_append, BitVec.and_append, BitVec.and_append]
  simp only [BitVec.and_allOnes, BitVec.and_zero]
  rfl

theorem maskedI (imm16 : BitVec 16) : encodeI imm16 &&& 0xFF0000FF = encodeI 0 := by
  have e : (0xFF0000FF : Word) = BitVec.allOnes 8 ++ 0#16 ++ BitVec.allOnes 4 ++ BitVec.allOnes 4 := by decide
  rw [encodeI, e, BitVec.and_append, BitVec.and_append, BitVec.and_append]
  simp only [BitVec.and_allOnes, BitVec.and_zero]
  rfl

theorem solve12 (wcnt : Byte) : Statement (.solve12 wcnt) :=
  ⟨_, List.mem_cons_self, rfl, selects_of_masked ((maskedS wcnt 12).trans (by decide))⟩

theorem solve15 (wcnt : Byte) : Statement (.solve15 wcnt) :=
  ⟨⟨"SOLVE.15", 0xFF00FFFF, 0x00000F01⟩, by decide, rfl, selects_of_masked ((maskedS wcnt 15).trans (by decide))⟩

theorem solve18 (wcnt : Byte) : Statement (.solve18 wcnt) :=
  ⟨⟨"SOLVE.18", 0xFF00FFFF, 0x00001201⟩, by decide, rfl, selects_of_masked ((maskedS wcnt 18).trans (by decide))⟩

theorem solve21 (wcnt : Byte) : Statement (.solve21 wcnt) :=
  ⟨⟨"SOLVE.21", 0xFF00FFFF, 0x00001501⟩, by decide, rfl, selects_of_masked ((maskedS wcnt 21).trans (by decide))⟩

theorem solve24 (wcnt : Byte) : Statement (.solve24 wcnt) :=
  ⟨⟨"SOLVE.24", 0xFF00FFFF, 0x00001801⟩, by decide, rfl, selects_of_masked ((maskedS wcnt 24).trans (by decide))⟩

theorem d2i : Statement .d2i := ⟨⟨"D2I", 0xFFFFFFFF, 0x00000002⟩, by decide, rfl, by decide⟩

theorem i2d (imm16 : BitVec 16) : Statement (.i2d imm16) :=
  ⟨⟨"I2D", 0xFF0000FF, 0x00000003⟩, by decide, rfl, selects_of_masked ((maskedI imm16).trans (by decide))⟩

theorem clr : Statement .clr := ⟨⟨"CLR", 0xFFFFFFFF, 0x00000004⟩, by decide, rfl, by decide⟩

end Sys2Proof.Laws.TableRow
end

