-- ==== Sys2Proof/Laws/State.lean ====
section
/-! SUPPORT. One lemma for each field of `State` under each named update, so that no proof unfolds a record update. -/

namespace Sys2Proof.Machine

variable (s : State)


/-! ### Command acceptance (R65) -/

@[simp] theorem accept_phase (v : Word) : (s.accept v).phase = .dispatch := rfl
@[simp] theorem accept_cmd (v : Word) : (s.accept v).cmd = v := rfl
@[simp] theorem accept_done (v : Word) : (s.accept v).done = false := rfl
@[simp] theorem accept_errCode (v : Word) : (s.accept v).errCode = .none := rfl
@[simp] theorem accept_errPos (v : Word) : (s.accept v).errPos = 0 := rfl
@[simp] theorem accept_errVal (v : Word) : (s.accept v).errVal = 0 := rfl
@[simp] theorem accept_nonce (v : Word) : (s.accept v).nonce = 0 := rfl
@[simp] theorem accept_rcount (v : Word) : (s.accept v).rcount = 0 := rfl
@[simp] theorem accept_idxOut (v : Word) : (s.accept v).idxOut = 0 := rfl
@[simp] theorem accept_diceOutLo (v : Word) : (s.accept v).diceOutLo = 0 := rfl
@[simp] theorem accept_diceOutHi (v : Word) : (s.accept v).diceOutHi = 0 := rfl
@[simp] theorem accept_diceInLo (v : Word) : (s.accept v).diceInLo = s.diceInLo := rfl
@[simp] theorem accept_diceInHi (v : Word) : (s.accept v).diceInHi = s.diceInHi := rfl
@[simp] theorem accept_w (v : Word) : (s.accept v).w = s.w := rfl
@[simp] theorem accept_res (v : Word) : (s.accept v).res = Vector.replicate 128 0 := rfl
@[simp] theorem accept_agenda (v : Word) : (s.accept v).agenda = s.agenda := rfl
@[simp] theorem accept_response (v : Word) : (s.accept v).response = s.response := rfl
@[simp] theorem accept_draws (v : Word) : (s.accept v).draws = s.draws := rfl

/-! ### `raise` (R237) -/

@[simp] theorem raise_phase (e : ErrCode) (pos val : Byte) : (s.raise e pos val).phase = .idle := rfl
@[simp] theorem raise_cmd (e : ErrCode) (pos val : Byte) : (s.raise e pos val).cmd = s.cmd := rfl
@[simp] theorem raise_done (e : ErrCode) (pos val : Byte) : (s.raise e pos val).done = true := rfl
@[simp] theorem raise_errCode (e : ErrCode) (pos val : Byte) : (s.raise e pos val).errCode = e := rfl
@[simp] theorem raise_errPos (e : ErrCode) (pos val : Byte) : (s.raise e pos val).errPos = pos := rfl
@[simp] theorem raise_errVal (e : ErrCode) (pos val : Byte) : (s.raise e pos val).errVal = val := rfl
@[simp] theorem raise_nonce (e : ErrCode) (pos val : Byte) : (s.raise e pos val).nonce = s.nonce := rfl
@[simp] theorem raise_rcount (e : ErrCode) (pos val : Byte) : (s.raise e pos val).rcount = s.rcount := rfl
@[simp] theorem raise_idxOut (e : ErrCode) (pos val : Byte) : (s.raise e pos val).idxOut = s.idxOut := rfl
@[simp] theorem raise_diceOutLo (e : ErrCode) (pos val : Byte) : (s.raise e pos val).diceOutLo = s.diceOutLo := rfl
@[simp] theorem raise_diceOutHi (e : ErrCode) (pos val : Byte) : (s.raise e pos val).diceOutHi = s.diceOutHi := rfl
@[simp] theorem raise_diceInLo (e : ErrCode) (pos val : Byte) : (s.raise e pos val).diceInLo = s.diceInLo := rfl
@[simp] theorem raise_diceInHi (e : ErrCode) (pos val : Byte) : (s.raise e pos val).diceInHi = s.diceInHi := rfl
@[simp] theorem raise_w (e : ErrCode) (pos val : Byte) : (s.raise e pos val).w = s.w := rfl
@[simp] theorem raise_res (e : ErrCode) (pos val : Byte) : (s.raise e pos val).res = s.res := rfl
@[simp] theorem raise_agenda (e : ErrCode) (pos val : Byte) : (s.raise e pos val).agenda = s.agenda := rfl
@[simp] theorem raise_response (e : ErrCode) (pos val : Byte) : (s.raise e pos val).response = s.response := rfl
@[simp] theorem raise_draws (e : ErrCode) (pos val : Byte) : (s.raise e pos val).draws = s.draws := rfl

/-! ### `complete` (R238) -/

@[simp] theorem complete_phase : (s.complete).phase = .idle := rfl
@[simp] theorem complete_cmd : (s.complete).cmd = s.cmd := rfl
@[simp] theorem complete_done : (s.complete).done = true := rfl
@[simp] theorem complete_errCode : (s.complete).errCode = s.errCode := rfl
@[simp] theorem complete_errPos : (s.complete).errPos = s.errPos := rfl
@[simp] theorem complete_errVal : (s.complete).errVal = s.errVal := rfl
@[simp] theorem complete_nonce : (s.complete).nonce = s.nonce := rfl
@[simp] theorem complete_rcount : (s.complete).rcount = s.rcount := rfl
@[simp] theorem complete_idxOut : (s.complete).idxOut = s.idxOut := rfl
@[simp] theorem complete_diceOutLo : (s.complete).diceOutLo = s.diceOutLo := rfl
@[simp] theorem complete_diceOutHi : (s.complete).diceOutHi = s.diceOutHi := rfl
@[simp] theorem complete_diceInLo : (s.complete).diceInLo = s.diceInLo := rfl
@[simp] theorem complete_diceInHi : (s.complete).diceInHi = s.diceInHi := rfl
@[simp] theorem complete_w : (s.complete).w = s.w := rfl
@[simp] theorem complete_res : (s.complete).res = s.res := rfl
@[simp] theorem complete_agenda : (s.complete).agenda = s.agenda := rfl
@[simp] theorem complete_response : (s.complete).response = s.response := rfl
@[simp] theorem complete_draws : (s.complete).draws = s.draws := rfl

/-! ### The reset values of `CLR` and reset (R210, R270) -/

@[simp] theorem clearCore_phase : (s.clearCore).phase = State.reset.phase := rfl
@[simp] theorem clearCore_cmd : (s.clearCore).cmd = State.reset.cmd := rfl
@[simp] theorem clearCore_done : (s.clearCore).done = State.reset.done := rfl
@[simp] theorem clearCore_errCode : (s.clearCore).errCode = State.reset.errCode := rfl
@[simp] theorem clearCore_errPos : (s.clearCore).errPos = State.reset.errPos := rfl
@[simp] theorem clearCore_errVal : (s.clearCore).errVal = State.reset.errVal := rfl
@[simp] theorem clearCore_nonce : (s.clearCore).nonce = State.reset.nonce := rfl
@[simp] theorem clearCore_rcount : (s.clearCore).rcount = State.reset.rcount := rfl
@[simp] theorem clearCore_idxOut : (s.clearCore).idxOut = State.reset.idxOut := rfl
@[simp] theorem clearCore_diceOutLo : (s.clearCore).diceOutLo = State.reset.diceOutLo := rfl
@[simp] theorem clearCore_diceOutHi : (s.clearCore).diceOutHi = State.reset.diceOutHi := rfl
@[simp] theorem clearCore_diceInLo : (s.clearCore).diceInLo = State.reset.diceInLo := rfl
@[simp] theorem clearCore_diceInHi : (s.clearCore).diceInHi = State.reset.diceInHi := rfl
@[simp] theorem clearCore_w : (s.clearCore).w = State.reset.w := rfl
@[simp] theorem clearCore_res : (s.clearCore).res = State.reset.res := rfl
@[simp] theorem clearCore_agenda : (s.clearCore).agenda = s.agenda := rfl
@[simp] theorem clearCore_response : (s.clearCore).response = s.response := rfl
@[simp] theorem clearCore_draws : (s.clearCore).draws = s.draws := rfl

/-! ### The answer of the port (R60) -/

@[simp] theorem answer_phase (p : PortResponse) : (s.answer p).phase = s.phase := rfl
@[simp] theorem answer_cmd (p : PortResponse) : (s.answer p).cmd = s.cmd := rfl
@[simp] theorem answer_done (p : PortResponse) : (s.answer p).done = s.done := rfl
@[simp] theorem answer_errCode (p : PortResponse) : (s.answer p).errCode = s.errCode := rfl
@[simp] theorem answer_errPos (p : PortResponse) : (s.answer p).errPos = s.errPos := rfl
@[simp] theorem answer_errVal (p : PortResponse) : (s.answer p).errVal = s.errVal := rfl
@[simp] theorem answer_nonce (p : PortResponse) : (s.answer p).nonce = s.nonce := rfl
@[simp] theorem answer_rcount (p : PortResponse) : (s.answer p).rcount = s.rcount := rfl
@[simp] theorem answer_idxOut (p : PortResponse) : (s.answer p).idxOut = s.idxOut := rfl
@[simp] theorem answer_diceOutLo (p : PortResponse) : (s.answer p).diceOutLo = s.diceOutLo := rfl
@[simp] theorem answer_diceOutHi (p : PortResponse) : (s.answer p).diceOutHi = s.diceOutHi := rfl
@[simp] theorem answer_diceInLo (p : PortResponse) : (s.answer p).diceInLo = s.diceInLo := rfl
@[simp] theorem answer_diceInHi (p : PortResponse) : (s.answer p).diceInHi = s.diceInHi := rfl
@[simp] theorem answer_w (p : PortResponse) : (s.answer p).w = s.w := rfl
@[simp] theorem answer_res (p : PortResponse) : (s.answer p).res = s.res := rfl
@[simp] theorem answer_agenda (p : PortResponse) : (s.answer p).agenda = s.agenda := rfl
@[simp] theorem answer_response (p : PortResponse) : (s.answer p).response = some p := rfl
@[simp] theorem answer_draws (p : PortResponse) : (s.answer p).draws = s.draws := rfl

/-! ### A command placed for the next step (R65) -/

@[simp] theorem placeCommand_phase (v : Word) : (s.placeCommand v).phase = .dispatch := rfl
@[simp] theorem placeCommand_cmd (v : Word) : (s.placeCommand v).cmd = v := rfl
@[simp] theorem placeCommand_done (v : Word) : (s.placeCommand v).done = false := rfl
@[simp] theorem placeCommand_errCode (v : Word) : (s.placeCommand v).errCode = .none := rfl
@[simp] theorem placeCommand_errPos (v : Word) : (s.placeCommand v).errPos = 0 := rfl
@[simp] theorem placeCommand_errVal (v : Word) : (s.placeCommand v).errVal = 0 := rfl
@[simp] theorem placeCommand_nonce (v : Word) : (s.placeCommand v).nonce = 0 := rfl
@[simp] theorem placeCommand_rcount (v : Word) : (s.placeCommand v).rcount = 0 := rfl
@[simp] theorem placeCommand_idxOut (v : Word) : (s.placeCommand v).idxOut = 0 := rfl
@[simp] theorem placeCommand_diceOutLo (v : Word) : (s.placeCommand v).diceOutLo = 0 := rfl
@[simp] theorem placeCommand_diceOutHi (v : Word) : (s.placeCommand v).diceOutHi = 0 := rfl
@[simp] theorem placeCommand_diceInLo (v : Word) : (s.placeCommand v).diceInLo = s.diceInLo := rfl
@[simp] theorem placeCommand_diceInHi (v : Word) : (s.placeCommand v).diceInHi = s.diceInHi := rfl
@[simp] theorem placeCommand_w (v : Word) : (s.placeCommand v).w = s.w := rfl
@[simp] theorem placeCommand_res (v : Word) : (s.placeCommand v).res = Vector.replicate 128 0 := rfl
@[simp] theorem placeCommand_agenda (v : Word) : (s.placeCommand v).agenda = .core :: s.agenda := rfl
@[simp] theorem placeCommand_response (v : Word) : (s.placeCommand v).response = s.response := rfl
@[simp] theorem placeCommand_draws (v : Word) : (s.placeCommand v).draws = s.draws := rfl

/-! ### The reset state (R37) -/

@[simp] theorem reset_phase : State.reset.phase = .idle := rfl
@[simp] theorem reset_cmd : State.reset.cmd = 0 := rfl
@[simp] theorem reset_done : State.reset.done = false := rfl
@[simp] theorem reset_errCode : State.reset.errCode = .none := rfl
@[simp] theorem reset_errPos : State.reset.errPos = 0 := rfl
@[simp] theorem reset_errVal : State.reset.errVal = 0 := rfl
@[simp] theorem reset_nonce : State.reset.nonce = 0 := rfl
@[simp] theorem reset_rcount : State.reset.rcount = 0 := rfl
@[simp] theorem reset_idxOut : State.reset.idxOut = 0 := rfl
@[simp] theorem reset_diceOutLo : State.reset.diceOutLo = 0 := rfl
@[simp] theorem reset_diceOutHi : State.reset.diceOutHi = 0 := rfl
@[simp] theorem reset_diceInLo : State.reset.diceInLo = 0 := rfl
@[simp] theorem reset_diceInHi : State.reset.diceInHi = 0 := rfl
@[simp] theorem reset_w : State.reset.w = Vector.replicate 23 0 := rfl
@[simp] theorem reset_res : State.reset.res = Vector.replicate 128 0 := rfl
@[simp] theorem reset_agenda : State.reset.agenda = [] := rfl
@[simp] theorem reset_response : State.reset.response = .none := rfl
@[simp] theorem reset_draws : State.reset.draws = 0 := rfl

/-- While the sequencer is at rest `BUSY` is 0, and otherwise 1 (R22). -/
@[simp] theorem busy_eq : s.busy = decide (s.phase ≠ .idle) := rfl

/-- `ERR` is `ERRCODE ≠ 0` (R22). -/
@[simp] theorem err_eq : s.err = decide (s.errCode ≠ .none) := rfl

end Sys2Proof.Machine
end

