-- ==== Sys2Proof/Laws/Port.lean ====
section
/-! SUPPORT. The register file and the port: what a read of a register depends on, the address map register by
register, and everything a host transaction can do. -/

namespace Sys2Proof.Machine

theorem code_ne_zero_iff (e : ErrCode) : e.code ≠ 0 ↔ e ≠ .none := by cases e <;> decide

/-- `STATUS` as a number (R22). -/
theorem statusWord_toNat (s : State) :
    (statusWord s).toNat = s.errCode.code.toNat * 16 + s.err.toNat * 4 + s.done.toNat * 2 + s.busy.toNat := by
  simp only [statusWord, append_toNat, BitVec.toNat_ofNat, BitVec.toNat_ofBool]; omega

/-- A register's value does not depend on the model's own fields. -/
theorem readReg_frame (s : State) (g : List AgentAction) (p : Option PortResponse) (d : Nat) (r : Reg) :
    ({ s with agenda := g, response := p, draws := d } : State).readReg r = s.readReg r := by
  cases r <;> rfl

theorem regAt_w (k : Fin 23) : regAt (Reg.w k).addr = some (.w k) := by revert k; decide

theorem regAt_res (n : Fin 128) : regAt (Reg.res n).addr = some (.res n) := by revert n; decide

/-- Only an address of a register decodes to it, checked address by address (R61). -/
theorem addr_of_regAt (a : PortAddr) (r : Reg) (h : regAt a = some r) : r.addr = a := by
  have all : ∀ x : Fin 1024, ∀ r ∈ regAt (BitVec.ofFin (w := 10) x), r.addr = BitVec.ofFin (w := 10) x := by
    decide +kernel
  exact all a.toFin r h

/-- Everything a read does: it answers, and it may draw (R62, R63, R66). -/
theorem hostRead_frame (addr : PortAddr) (size : Nat) (s : State) :
    ∃ p d, hostRead addr size s = { s with response := some p, draws := d } := by
  unfold hostRead
  split
  · exact ⟨_, _, rfl⟩
  · split
    · exact ⟨_, _, rfl⟩
    · unfold hostReadReg
      split
      · exact ⟨_, _, rfl⟩
      · exact ⟨_, _, rfl⟩

/-- Everything a write does: it is refused, or it is a whole word written at rest to a writable register (R64). -/
theorem hostWrite_cases (addr : PortAddr) (size : Nat) (v : Word) (s : State) :
    hostWrite addr size v s = s.answer .err ∨
      (size = 4 ∧ s.phase = .idle ∧ ∃ r, regAt addr = some r ∧ r.writable = true ∧
        hostWrite addr size v s = (s.writeReg r v).answer .ok) := by
  unfold hostWrite
  by_cases h : size = 4
  · cases hr : regAt addr with
    | none => simp [h]
    | some r =>
      by_cases hw : r.writable = true
      · by_cases hp : s.phase = .idle <;> simp [h, hp, hw]
      · simp [h, hw]
  · simp [h]

end Sys2Proof.Machine
end

