-- ==== Sys2Proof/Laws/Solve.lean ====
section
/-! SUPPORT. `SOLVE`: its meaning for every length at once, everything its dispatch step can do, and what an iteration
leaves. -/

namespace Sys2Proof.Machine

/-- The five rows have one meaning, parametric in the length (R120). -/
@[simp] theorem exec_solve (L : MnemonicLength) (n : Byte) (s : State) :
    exec (Instr.solve L n) s = solveStep L n s := by cases L <;> rfl

/-- Everything the dispatch step of a `SOLVE` does (R121 to R123). -/
theorem solveDispatch_cases (L : MnemonicLength) (n : Byte) (s : State) :
    (n.toNat ≠ L.words - 1 ∧ solveDispatch L n s = s.raise .lengthMismatch (BitVec.ofNat 8 L.known) n) ∨
    (n.toNat = L.words - 1 ∧ ∃ k, firstNotFound (knownWords L s) = some k ∧
      solveDispatch L n s = s.raise .invalidWord (BitVec.ofNat 8 k) 0) ∨
    (n.toNat = L.words - 1 ∧ firstNotFound (knownWords L s) = none ∧
      solveDispatch L n s = { s with phase := .iter }) := by
  unfold solveDispatch
  split
  · rename_i h
    exact .inl ⟨h, rfl⟩
  · rename_i h
    have h : n.toNat = L.words - 1 := by simpa [known_eq] using h
    split
    · rename_i k hk
      exact .inr (.inl ⟨h, k, hk, rfl⟩)
    · rename_i hk
      exact .inr (.inr ⟨h, hk, rfl⟩)

/-- An iteration that is not the last (R124). -/
theorem iterate_of_ne (L : MnemonicLength) (s : State) (h : s.nonce.toNat + 1 ≠ L.count) :
    iterate L s = { s with
      res := s.res.setIfInBounds s.nonce.toNat (BitVec.ofNat 11 (candidate L (knownWords L s) s.nonce.toNat))
      nonce := BitVec.ofNat 8 (s.nonce.toNat + 1) } := by
  simp only [iterate, h, if_false]

/-- The last iteration (R125). -/
theorem iterate_of_eq (L : MnemonicLength) (s : State) (h : s.nonce.toNat + 1 = L.count) :
    iterate L s = { s with
      res := s.res.setIfInBounds s.nonce.toNat (BitVec.ofNat 11 (candidate L (knownWords L s) s.nonce.toNat))
      nonce := BitVec.ofNat 8 L.count, rcount := BitVec.ofNat 8 L.count, done := true, phase := .idle } := by
  simp only [iterate, h, if_true, State.complete]

/-- What no iteration changes (R124, R125). -/
theorem iterate_frame (L : MnemonicLength) (s : State) :
    (iterate L s).cmd = s.cmd ∧ (iterate L s).errCode = s.errCode ∧ (iterate L s).errPos = s.errPos ∧
      (iterate L s).errVal = s.errVal ∧ (iterate L s).idxOut = s.idxOut ∧
      (iterate L s).diceOutLo = s.diceOutLo ∧ (iterate L s).diceOutHi = s.diceOutHi ∧
      (iterate L s).diceInLo = s.diceInLo ∧ (iterate L s).diceInHi = s.diceInHi ∧ (iterate L s).w = s.w ∧
      (iterate L s).agenda = s.agenda ∧ (iterate L s).response = s.response ∧
      (iterate L s).draws = s.draws := by
  by_cases h : s.nonce.toNat + 1 = L.count
  · rw [iterate_of_eq L s h]; simp
  · rw [iterate_of_ne L s h]; simp

end Sys2Proof.Machine
end

