-- ==== Sys2Proof/Laws/Step.lean ====
section
/-! SUPPORT. One step: by the head of the agenda, and by everything a step can do; the core's step likewise; and runs
of several steps. -/

namespace Sys2Proof.Machine

/-! ### A step by the next action -/

theorem step_nil {s : State} (h : s.agenda = []) : step s = coreStep s := by simp [step, nextAction, h]

theorem step_core {s : State} {rest : List AgentAction} (h : s.agenda = .core :: rest) :
    step s = coreStep { s with agenda := rest } := by simp [step, nextAction, h, act]

theorem step_read {s : State} {addr : PortAddr} {size : Nat} {rest : List AgentAction}
    (h : s.agenda = .read addr size :: rest) : step s = .next (hostRead addr size { s with agenda := rest }) := by
  simp [step, nextAction, h, act]

theorem step_write {s : State} {addr : PortAddr} {size : Nat} {v : Word} {rest : List AgentAction}
    (h : s.agenda = .write addr size v :: rest) :
    step s = .next (hostWrite addr size v { s with agenda := rest }) := by
  simp [step, nextAction, h, act]

theorem step_reset {s : State} {rest : List AgentAction} (h : s.agenda = .reset :: rest) :
    step s = .next (State.clearCore { s with agenda := rest }) := by
  simp [step, nextAction, h, act]

/-! ### Everything a step can do -/

/-- Everything the core's turn can do, dispatch step and iteration step (R34, R91, R124). -/
theorem coreStep_cases {s t : State} (h : coreStep s = .next t) :
    (s.phase = .idle ∧ t = s) ∨
    (s.phase = .iter ∧ ∃ L n, decodeWord s.cmd = .legal (Instr.solve L n) ∧ s.nonce.toNat < L.count ∧
      t = iterate L s) ∨
    (s.phase = .dispatch ∧
      ((∃ why, decodeWord s.cmd = .illegal why ∧ t = s.raise .illegalCmd 0 0) ∨
        (∃ L n, decodeWord s.cmd = .legal (Instr.solve L n) ∧ t = solveDispatch L n s) ∨
        (decodeWord s.cmd = .legal .d2i ∧
          ((∃ x, scanDice 0 0 (diceChars s) = .index x ∧
              t = ({ s with idxOut := BitVec.ofNat 13 x } : State).complete) ∨
            ∃ pos c, scanDice 0 0 (diceChars s) = .invalid pos c ∧
              t = s.raise .invalidDiceChar (BitVec.ofNat 8 pos) c)) ∨
        (∃ x, decodeWord s.cmd = .legal (.i2d x) ∧
          ((7776 ≤ x.toNat ∧ t = s.raise .indexRange 0 0) ∨
            (x.toNat < 7776 ∧ ∃ lo hi, t = ({ s with diceOutLo := lo, diceOutHi := hi } : State).complete))) ∨
        (decodeWord s.cmd = .legal .clr ∧ t = s.clearCore))) := by
  cases hp : s.phase with
  | idle =>
    simp only [coreStep, hp] at h
    cases h
    simp
  | iter =>
    simp only [coreStep, hp, iterationStep] at h
    cases hd : decodeWord s.cmd with
    | illegal why => rw [hd] at h; cases h
    | legal i =>
      rw [hd] at h
      rcases instr_cases i with ⟨L, n, rfl⟩ | rfl | ⟨x, rfl⟩ | rfl
      · simp only [isSolve_solve, if_true, exec_solve, solveStep, hp, solveIterate] at h
        split at h
        · rename_i hn
          cases h
          exact .inr (.inl ⟨rfl, L, n, rfl, hn, rfl⟩)
        · cases h
      all_goals simp [Instr.isSolve] at h
  | dispatch =>
    simp only [coreStep, hp, dispatchStep] at h
    refine .inr (.inr ⟨rfl, ?_⟩)
    cases hd : decodeWord s.cmd with
    | illegal why =>
      rw [hd] at h
      cases h
      exact .inl ⟨why, rfl, rfl⟩
    | legal i =>
      rw [hd] at h
      rcases instr_cases i with ⟨L, n, rfl⟩ | rfl | ⟨x, rfl⟩ | rfl
      · simp only [exec_solve, solveStep, hp] at h
        cases h
        exact .inr (.inl ⟨L, n, rfl, rfl⟩)
      · refine .inr (.inr (.inl ⟨rfl, ?_⟩))
        rcases execD2i_cases s with ⟨x, hx, e⟩ | ⟨pos, c, hx, e⟩ <;> simp only [exec, e] at h <;> cases h
        · exact .inl ⟨x, hx, rfl⟩
        · exact .inr ⟨pos, c, hx, rfl⟩
      · refine .inr (.inr (.inr (.inl ⟨x, rfl, ?_⟩)))
        rcases execI2d_cases x s with ⟨hx, e⟩ | ⟨hx, lo, hi, e⟩ <;> simp only [exec, e] at h <;> cases h
        · exact .inl ⟨hx, rfl⟩
        · exact .inr ⟨hx, lo, hi, rfl⟩
      · cases h
        exact .inr (.inr (.inr (.inr ⟨rfl, rfl⟩)))

/-- Everything a step can do, action by action (R70). -/
theorem step_cases {s t : State} (h : step s = .next t) :
    (CoreTurn s ∧ coreStep { s with agenda := s.agenda.tail } = .next t) ∨
    (∃ p d, t = { s with agenda := s.agenda.tail, response := some p, draws := d }) ∨
    (∃ addr v rest r, s.agenda = .write addr 4 v :: rest ∧ s.phase = .idle ∧ regAt addr = some r ∧
      r.writable = true ∧ t = (State.writeReg { s with agenda := rest } r v).answer .ok) ∨
    (∃ rest, s.agenda = .reset :: rest ∧ t = State.clearCore { s with agenda := rest }) := by
  cases ha : s.agenda with
  | nil =>
    refine .inl ⟨.inl ha, ?_⟩
    have e : ({ s with agenda := [] } : State) = s := by rw [← ha]
    rw [List.tail_nil, e, ← step_nil ha, h]
  | cons a rest =>
    rw [List.tail_cons]
    cases a with
    | core => exact .inl ⟨.inr ⟨rest, ha⟩, by rw [← step_core ha, h]⟩
    | read addr size =>
      rw [step_read ha] at h
      cases h
      exact .inr (.inl (hostRead_frame addr size _))
    | write addr size v =>
      rw [step_write ha] at h
      cases h
      rcases hostWrite_cases addr size v { s with agenda := rest } with e | ⟨rfl, hp, r, hr, hw, e⟩
      · exact .inr (.inl ⟨.err, s.draws, e⟩)
      · exact .inr (.inr (.inl ⟨addr, v, rest, r, rfl, hp, hr, hw, e⟩))
    | reset =>
      rw [step_reset ha] at h
      cases h
      exact .inr (.inr (.inr ⟨rest, rfl, rfl⟩))

/-! ### Runs -/

theorem runFor_succ (k : Nat) (s : State) :
    runFor (k + 1) s = match step s with
      | .next t => runFor k t
      | .fault r => .fault r
      | .refused r => .refused r := rfl

theorem runFor_next {k : Nat} {s t : State} (h : step s = .next t) : runFor (k + 1) s = runFor k t := by
  rw [runFor_succ, h]

theorem runFor_add {j k : Nat} {s t : State} (h : runFor j s = .next t) : runFor (j + k) s = runFor k t := by
  induction j generalizing s with
  | zero =>
    cases h
    rw [Nat.zero_add]
  | succ j ih =>
    rw [show j + 1 + k = j + k + 1 by omega, runFor_succ]
    rw [runFor_succ] at h
    cases hs : step s with
    | next u => rw [hs] at h; exact ih h
    | fault r => rw [hs] at h; cases h
    | refused r => rw [hs] at h; cases h

theorem core_run_succ (M : Host.Core) (k : Nat) (s : M.State) :
    M.run (k + 1) s = match M.step s with
      | .next t => M.run k t
      | .fault r => .fault r
      | .refused r => .refused r := rfl

/-- `runFor` is the run of the host's interface. -/
theorem core_run_eq_runFor (k : Nat) (s : State) : Sys2Proof.core.run k s = runFor k s := by
  induction k generalizing s with
  | zero => rfl
  | succ k ih =>
    rw [runFor_succ]
    refine (core_run_succ Sys2Proof.core k s).trans ?_
    cases h : Sys2Proof.core.step s with
    | next t =>
      rw [show step s = .next t from h]
      exact ih t
    | fault r =>
      rw [show step s = .fault r from h]
      rfl
    | refused r =>
      rw [show step s = .refused r from h]
      rfl

end Sys2Proof.Machine
end

