-- ==== Sys2Proof/Tests/Slice0.lean ====
section
/-! SUPPORT. The model's own tests. Expected values come from the spec: the encodings of R90 and R92, the examples of
the rules, and the vectors of 95_test_vectors.md, named `V…`. The second half holds, for each obligation with
hypotheses, a concrete case that meets all of them together (`test_witness_…`). -/

namespace Sys2Proof.Tests

open Sys2Proof.Machine

-- One theorem after the other: the digests are evaluated by the kernel, and each waiting thread reserves memory.
set_option Elab.async false

/-! ### Helpers -/

/-- The outcome is a next state with the property. -/
def ends (o : Host.Outcome State Fault Refusal) (p : State → Bool) : Bool :=
  match o with
  | .next t => p t
  | .fault _ => false
  | .refused _ => false

/-- The reset state with actions to come. -/
def host (acts : List AgentAction) : State := { State.reset with agenda := acts }

/-- The reset state with a command word accepted and actions to come. -/
def busyWith (c : Word) (acts : List AgentAction) : State := { State.reset.accept c with agenda := acts }

/-- A `SOLVE` about to iterate on nonce `n`, with word slots given by `w`. -/
def iterAt (c : Word) (w : Nat → Nat) (n : Byte) : State :=
  { State.reset.accept c with phase := .iter, nonce := n, w := Vector.ofFn fun k => BitVec.ofNat 32 (w k.val) }

/-- A command just accepted, with word slots given by `w`. -/
def slots (c : Word) (w : Nat → Nat) : State :=
  { State.reset.accept c with w := Vector.ofFn fun k => BitVec.ofNat 32 (w k.val) }

/-- `D2I` accepted with these operands. -/
def dice (lo hi : Word) : State := { State.reset.accept 0x00000002 with diceInLo := lo, diceInHi := hi }

/-- The words of V76 and V78. -/
def spread (k : Nat) : Nat := (97 * k + 5) % 2048

/-- The first digest byte. -/
def firstByte (m : List Byte) : Byte := (sha256 m)[0]

/-! ### Decoding, from the formats of R90 (V1 to V9) -/

/-- `SOLVE 12, 11`: `00000000 00001011 00001100 0000 0001`. -/
theorem test_decode_solve12 :
    decodeWord 0b00000000_00001011_00001100_0000_0001 = .legal (.solve12 11) := by decide

/-- `SOLVE 15, 14`: `00000000 00001110 00001111 0000 0001`. -/
theorem test_decode_solve15 :
    decodeWord 0b00000000_00001110_00001111_0000_0001 = .legal (.solve15 14) := by decide

/-- `SOLVE 18, 17`. -/
theorem test_decode_solve18 :
    decodeWord 0b00000000_00010001_00010010_0000_0001 = .legal (.solve18 17) := by decide

/-- `SOLVE 21, 20`. -/
theorem test_decode_solve21 :
    decodeWord 0b00000000_00010100_00010101_0000_0001 = .legal (.solve21 20) := by decide

/-- `SOLVE 24, 23`. -/
theorem test_decode_solve24 :
    decodeWord 0b00000000_00010111_00011000_0000_0001 = .legal (.solve24 23) := by decide

/-- `D2I`: `00000000 00000000 00000000 0000 0010`. -/
theorem test_decode_d2i : decodeWord 0b00000000_00000000_00000000_0000_0010 = .legal .d2i := by decide

/-- `I2D 7775`: 7775 = `00011110 01011111`. -/
theorem test_decode_i2d :
    decodeWord 0b00000000_00011110_01011111_0000_0011 = .legal (.i2d 7775) := by decide

/-- `CLR`: `00000000 00000000 00000000 0000 0100`. -/
theorem test_decode_clr : decodeWord 0b00000000_00000000_00000000_0000_0100 = .legal .clr := by decide

/-- Every value of `WCNT` and of `IMM16` is a legal encoding (V9k, V9l). -/
theorem test_decode_extremes :
    decodeWord 0x00FF0C01 = .legal (.solve12 255) ∧ decodeWord 0x00FFFF03 = .legal (.i2d 65535) := by decide

/-- V9a to V9j. -/
theorem test_decode_illegal :
    [0x00000000, 0x00000005, 0x0000000F, 0x000C0D01, 0x00000001, 0x010B0C01, 0x000B0C11, 0x00000102, 0x00010004,
      0x80000003].map decodeWord =
    [.illegal .unassignedOp, .illegal .unassignedOp, .illegal .unassignedOp, .illegal .unknownLength,
      .illegal .unknownLength, .illegal .reservedHigh, .illegal .reservedLow, .illegal .operandNotZero,
      .illegal .operandNotZero, .illegal .reservedHigh] := by decide

/-- The encoder against the words of 95_test_vectors.md section 2.1. -/
theorem test_encode :
    [Instr.solve12 11, .solve15 14, .solve18 17, .solve21 20, .solve24 23, .d2i, .i2d 7775, .clr].map encode =
    [0x000B0C01, 0x000E0F01, 0x00111201, 0x00141501, 0x00171801, 0x00000002, 0x001E5F03, 0x00000004] := by decide

/-- The words of the opcode table's rows through the interface of the host, and a longer word than any command. -/
theorem test_decodeTableWord :
    decodeTableWord 32 0x00001801 = some (.solve24 0) ∧ decodeTableWord 32 0x00000003 = some (.i2d 0) ∧
    decodeTableWord 32 0x00000005 = none ∧ decodeTableWord 48 0x00000004 = none := by decide

/-! ### Well-formedness: one ill-formed line for each check (R99) -/

theorem test_wf_refuses_length : SourceLine.wf (.solve 13 12) = false ∧ SourceLine.wf (.solveAll 9) = false := by decide

theorem test_wf_refuses_count : SourceLine.wf (.solve 12 256) = false ∧ SourceLine.wf (.solve 12 255) = true := by decide

theorem test_wf_refuses_index : SourceLine.wf (.i2d 65536) = false ∧ SourceLine.wf (.i2d 65535) = true := by decide

/-- R99: the command words of the notation. -/
theorem test_source_words :
    [SourceLine.solve 12 10, .solveAll 24, .d2i, .i2d 585, .clr].map SourceLine.word =
    [0x000A0C01, 0x00171801, 0x00000002, 0x00024903, 0x00000004] := by decide

/-! ### `SHA256`, the packer and the checksum -/

/-- First bytes of digests of 95_test_vectors.md section 3. -/
theorem test_sha256_first_bytes :
    firstByte (List.replicate 20 0x00) = 0xDE ∧ firstByte (List.replicate 24 0x00) = 0x9D ∧
    firstByte (List.replicate 28 0xFF) = 0x32 ∧ firstByte (List.replicate 32 0x80) = 0xBD := by decide +kernel

/-- `SHA256` of a message of two blocks, from general knowledge: the 56-byte message of the standard's example. -/
theorem test_sha256_two_blocks :
    firstByte ("abcdbcdecdefdefgefghfghighijhijkijkljklmklmnlmnomnopnopq".toList.map
      fun c => BitVec.ofNat 8 c.toNat) = 0x24 := by decide +kernel

/-- V75: `W[k] = k + 1`, nonce 85. -/
theorem test_pack_v75 :
    entropyBlock .w12 ((List.range 11).map fun k => BitVec.ofNat 32 (k + 1)) 85 =
    [0x00, 0x20, 0x08, 0x01, 0x80, 0x40, 0x0A, 0x01, 0x80, 0x38, 0x08, 0x01, 0x20, 0x28, 0x05, 0xD5] := by decide

/-- V79: the block of 24 words. -/
theorem test_pack_v79 :
    entropyBlock .w24 ((List.range 23).map fun k => BitVec.ofNat 32 (spread k)) 7 =
    [0x00, 0xA1, 0x98, 0x63, 0x92, 0x83, 0x12, 0x7A, 0x92, 0x5A, 0xAC, 0x61, 0xAD, 0xB9, 0xE7, 0xC3, 0x09, 0x23, 0x3C,
      0xAA, 0x9D, 0xB4, 0xC2, 0xB9, 0xDB, 0x6B, 0xF3, 0x8F, 0x33, 0xFE, 0x82, 0xDF] := by decide

/-- V75 by the accumulator of R151. -/
theorem test_accumulator_v75 :
    packByAccumulator (blockFields .w12 ((List.range 11).map fun k => BitVec.ofNat 32 (k + 1)) 85) =
    ⟨0, 0, [0x00, 0x20, 0x08, 0x01, 0x80, 0x40, 0x0A, 0x01, 0x80, 0x38, 0x08, 0x01, 0x20, 0x28, 0x05, 0xD5]⟩ := by
  decide

/-- V81, V83, V84, V87, V88, V89. -/
theorem test_candidates :
    assemble .w12 127 (checksumOf .w12 0x5A) = 2037 ∧ assemble .w15 0 (checksumOf .w15 0xDE) = 27 ∧
    assemble .w18 0 (checksumOf .w18 0x9D) = 39 ∧ assemble .w24 7 (checksumOf .w24 0x48) = 1864 ∧
    assemble .w12 5 (checksumOf .w12 0x00) = 80 ∧ assemble .w21 15 (checksumOf .w21 0xFF) = 2047 := by decide

/-- V23, first row: the phrase made forwards from the entropy `7f` ×16 is valid, and its neighbour is not. -/
theorem test_bip39Valid :
    Bip39Valid .w12 [1019, 2015, 1790, 2039, 1983, 1533, 2031, 1919, 1019, 2015, 1790, 2040] ∧
    ¬Bip39Valid .w12 [1019, 2015, 1790, 2039, 1983, 1533, 2031, 1919, 1019, 2015, 1790, 2041] := by decide +kernel

/-! ### `SOLVE`: dispatch and iteration -/

/-- V50, V51, V52, V54, V55, V57, V58: `STATUS` and `ERRINFO` after the dispatch step. -/
theorem test_solve12_errors :
    ends (exec (.solve12 10) (slots 0x000A0C01 fun k => if k = 3 then 0xFFFFFFFF else 0))
      (fun t => t.readReg .status == 0x00000036 && t.readReg .errInfo == 0x00000A0B) ∧
    ends (exec (.solve12 255) (slots 0x00FF0C01 fun _ => 0)) (fun t => t.readReg .errInfo == 0x0000FF0B) ∧
    ends (exec (.solve12 12) (slots 0x000C0C01 fun _ => 0)) (fun t => t.readReg .errInfo == 0x00000C0B) ∧
    ends (exec (.solve12 11) (slots 0x000B0C01 fun k => if k = 4 then 0xFFFFFFFF else 0))
      (fun t => t.readReg .status == 0x00000016 && t.readReg .errInfo == 0x00000004) ∧
    ends (exec (.solve12 11) (slots 0x000B0C01 fun k => if k = 2 then 2048 else if k = 9 then 0xFFFFFFFF else 0))
      (fun t => t.readReg .errInfo == 0x00000002) ∧
    ends (exec (.solve12 11) (slots 0x000B0C01 fun k => if k = 0 then 2048 else 0))
      (fun t => t.readReg .status == 0x00000016 && t.readReg .errInfo == 0x00000000) := by decide

/-- V10 and V20, their last candidates. -/
theorem test_solve12_iterates :
    ends (exec (.solve12 11) (iterAt 0x000B0C01 (fun _ => 0) 127))
      (fun t => t.readReg (.res 127) == 2032 && t.readReg .rcount == 128 && t.readReg .status == 2) ∧
    ends (exec (.solve12 11) (iterAt 0x000B0C01 spread 127)) (fun t => t.readReg (.res 127) == 2043) := by
  decide +kernel

/-- V11 and V16. -/
theorem test_solve15_iterates :
    ends (exec (.solve15 14) (iterAt 0x000E0F01 (fun _ => 0) 1))
      (fun t => t.readReg (.res 1) == 61 && t.readReg .nonce == 2 && t.readReg .status == 1) ∧
    ends (exec (.solve15 14) (iterAt 0x000E0F01 (fun _ => 2047) 63))
      (fun t => t.readReg (.res 63) == 2035 && t.readReg .rcount == 64) := by decide +kernel

/-- V12 and V17. -/
theorem test_solve18_iterates :
    ends (exec (.solve18 17) (iterAt 0x00111201 (fun _ => 0) 30))
      (fun t => t.readReg (.res 30) == 1956 && t.readReg .nonce == 31 && t.readReg .rcount == 0) ∧
    ends (exec (.solve18 17) (iterAt 0x00111201 (fun _ => 2047) 31))
      (fun t => t.readReg (.res 31) == 2001 && t.readReg .rcount == 32) := by decide +kernel

/-- V13 and V18. -/
theorem test_solve21_iterates :
    ends (exec (.solve21 20) (iterAt 0x00141501 (fun _ => 0) 15))
      (fun t => t.readReg (.res 15) == 1941 && t.readReg .nonce == 16 && t.readReg .status == 2) ∧
    ends (exec (.solve21 20) (iterAt 0x00141501 (fun _ => 2047) 0))
      (fun t => t.readReg (.res 0) == 101 && t.readReg .nonce == 1) := by decide +kernel

/-- V14 and V21. -/
theorem test_solve24_iterates :
    ends (exec (.solve24 23) (iterAt 0x00171801 (fun _ => 0) 7))
      (fun t => t.readReg (.res 7) == 1864 && t.readReg .rcount == 8 && t.readReg .nonce == 8) ∧
    ends (exec (.solve24 23) (iterAt 0x00171801 spread 3))
      (fun t => t.readReg (.res 3) == 947 && t.readReg .nonce == 4) := by decide +kernel

/-- V53, V56, V59. -/
theorem test_solve_dispatch :
    ends (exec (.solve24 0) (slots 0x00001801 fun _ => 0)) (fun t => t.readReg .errInfo == 0x00000017) ∧
    ends (exec (.solve12 11) (slots 0x000B0C01 fun k => if k = 11 then 0xFFFFFFFF else 0))
      (fun t => t.phase == .iter && t.readReg .status == 1) ∧
    ends (exec (.solve12 11) (slots 0x000B0C01 fun k => if k = 10 then 2047 else 0)) (fun t => t.phase == .iter) := by
  decide

/-! ### The codec and `CLR` -/

/-- V32, V34, V36, V38, V39b, V65: `IDX_OUT`. -/
theorem test_d2i_converts :
    [(0x32353331, 0x34, 585), (0x31313132, 0x31, 1296), (0x35333535, 0x31, 6144), (0x34333236, 0x31, 6786),
      (0x35323433, 0x31, 3300), (0x31313131, 0xDEADBE31, 0)].all (fun v : Word × Word × Word =>
        ends (exec .d2i (dice v.1 v.2.1)) fun t => t.readReg .idxOut == v.2.2 && t.readReg .status == 2) := by decide

/-- V60 to V64, V66: `ERRINFO`. -/
theorem test_d2i_reports :
    [(0x33323130, 0x34, 0x3000), (0x34333231, 0x37, 0x3704), (0x79337831, 0x35, 0x7801), (0, 0, 0),
      (0x03020100, 4, 0), (0x31313131, 0x80, 0x8004)].all (fun v : Word × Word × Word =>
        ends (exec .d2i (dice v.1 v.2.1)) fun t =>
          t.readReg .errInfo == v.2.2 && t.readReg .status == 0x26 && t.readReg .idxOut == 0) := by decide

/-- V43, V43a, V43e, V44, V45a, V45c, V47: `DICE_OUT_LO` and `DICE_OUT_HI`. -/
theorem test_i2d_converts :
    [(5, 0x31313131, 0x36), (6, 0x32313131, 0x31), (216, 0x31313231, 0x31), (585, 0x32353331, 0x34),
      (2047, 0x36333432, 0x32), (4095, 0x35363134, 0x34), (6144, 0x35333535, 0x31)].all
      (fun v : BitVec 16 × Word × Word => ends (exec (.i2d v.1) (State.reset.accept 3)) fun t =>
        t.readReg .diceOutLo == v.2.1 && t.readReg .diceOutHi == v.2.2 && t.readReg .status == 2) := by decide

/-- V48, V49, V49a. -/
theorem test_i2d_reports :
    [7776, 65535, 8191].all (fun i : BitVec 16 => ends (exec (.i2d i) (State.reset.accept 3)) fun t =>
      t.readReg .status == 0x56 && t.readReg .errInfo == 0 && t.readReg .diceOutLo == 0) := by decide

/-- V101: operands and `CMD` are cleared, and `DONE` is 0. -/
theorem test_clr :
    ends (exec .clr (slots 0x00000004 fun k => if k = 4 then 0xFFFFFFFF else 7)) (fun t =>
      t.readReg .status == 0 && t.readReg .cmd == 0 && t.readReg (.w 4) == 0 && t.readReg (.w 22) == 0) := by decide

/-! ### The port, two steps at most (V90 to V99f) -/

theorem test_port_reads :
    [(0x004, PortResponse.okData 0), (0x028, .err), (0x15C, .err), (0x158, .okData 0), (0x002, .err), (0x3FC, .okData 0)].all
      (fun v : PortAddr × PortResponse => ends (step (host [.read v.1 4])) fun t => t.response == some v.2) := by decide

theorem test_port_writes :
    ends (step (host [.write 0x004 4 0xFFFFFFFF])) (fun t => t.response == some .err) ∧
    ends (step (host [.write 0x200 4 1])) (fun t => t.response == some .err && t.readReg (.res 0) == 0) ∧
    ends (runFor 2 (host [.write 0x100 4 0x12345678, .read 0x100 4]))
      (fun t => t.response == some (.okData 0x12345678)) ∧
    ends (runFor 2 (host [.write 0x024 4 0xDEADBE31, .read 0x024 4]))
      (fun t => t.response == some (.okData 0xDEADBE31)) ∧
    ends (step (host [.write 0x100 2 1])) (fun t => t.response == some .err && t.readReg (.w 0) == 0) := by decide

theorem test_port_during_a_run :
    ends (runFor 2 (host [.write 0x000 4 0x000B0C01, .write 0x100 4 7]))
      (fun t => t.response == some .err && t.readReg (.w 0) == 0) ∧
    ends (step (busyWith 0x000B0C01 [.write 0x000 4 4])) (fun t => t.response == some .err && t.cmd == 0x000B0C01) ∧
    ends (step (busyWith 0x000B0C01 [.read 0x004 4])) (fun t => t.response == some (.okData 1)) ∧
    ends (step (busyWith 0x000B0C01 [.read 0x000 4])) (fun t => t.response == some (.okData 0x000B0C01)) ∧
    ends (step (busyWith 0x000B0C01 [.read 0x010 4])) (fun t => t.response == some (.okData 0)) := by decide

/-- V99d: the answer is a free value, so only that a value was drawn is tested. -/
theorem test_port_draws :
    ends (step (busyWith 0x000B0C01 [.read 0x200 4])) (fun t => t.draws == 1) ∧
    ends (step (host [.read 0x200 4])) (fun t => t.draws == 0 && t.response == some (.okData 0)) := by
  exact ⟨rfl, by decide⟩

/-- The step after reset with a command placed is that command's (log entry 9). -/
theorem test_withFetchWord :
    ends (step (State.reset.withFetchWord 32 0x00024903)) (fun t => t.readReg .diceOutLo == 0x32353331) ∧
    ends (step (State.reset.withFetchWord 32 0x00001801)) (fun t => t.readReg .errInfo == 0x00000017) := by decide

/-! ### Witnesses: concrete cases that meet the hypotheses of each obligation together -/

/-- The launch of `SOLVE 24` after reset: every slot 0 (R133). -/
def launch24 : State := host [.write 0x000 4 (solveWord .w24)]

theorem test_witness_launch : SolveLaunch .w24 launch24 := ⟨rfl, by decide, by decide⟩

/-- For the shortest length with slots that hold 2047, and a not-found marker in the slot above. -/
theorem test_witness_launch12 :
    SolveLaunch .w12 { host [.write 0x000 4 (solveWord .w12)] with
      w := Vector.ofFn fun k : Fin 23 => if k.val < 11 then 2047 else 0xFFFFFFFF } :=
  ⟨rfl, by decide, by decide⟩

/-- A command just accepted has the invariant. -/
theorem test_witness_inv_dispatching (c : Word) (acts : List AgentAction) : Inv (busyWith c acts) := by
  refine ⟨?_, fun _ => ⟨rfl, rfl, rfl, rfl, rfl, rfl⟩, ?_, fun _ => ⟨rfl, rfl⟩, ?_, ?_, ?_, ?_, by simp [busyWith]⟩ <;>
    simp [busyWith]

/-- So does a `SOLVE` before its first iteration. -/
theorem test_witness_inv_iterating : Inv { busyWith 0x00171801 [.read 0x200 4] with phase := .iter } := by
  refine ⟨?_, by simp, fun _ => ⟨.w24, by decide, by decide, ?_, ?_⟩, fun _ => ⟨rfl, rfl⟩, ?_, ?_, ?_, ?_,
    by simp [busyWith]⟩
  case refine_2 =>
    intro w hw
    obtain ⟨k, _, rfl⟩ := mem_knownWords.1 hw
    simp [busyWith]
  case refine_3 =>
    intro m
    simp [busyWith]
  all_goals simp [busyWith]

/-- So does a command that ended in error. -/
theorem test_witness_inv_failed : Inv ((busyWith 0 []).raise .illegalCmd 0 0) := by
  refine ⟨by simp, by simp, by simp, by simp, fun _ => ⟨rfl, rfl, rfl, rfl, rfl, rfl, rfl⟩, by simp,
    fun _ => ⟨rfl, .inl rfl⟩, ?_, by simp [busyWith]⟩
  intro _ m _
  simp [busyWith]

theorem test_witness_EncodeDecodeRoundTrip : decodeWord 0x001E5F03 = .legal (.i2d 7775) := by decide

theorem test_witness_DecodingFollowsTheOpcodeMap :
    (⟨"SOLVE.24", 0xFF00FFFF, 0x00001801⟩ ∈ opcodeMap ∧ (0x00FF1801 : Word) &&& 0xFF00FFFF = 0x00001801) ∧
    (∀ r ∈ opcodeMap, (0x00FF1901 : Word) &&& r.mask ≠ r.pattern) := by decide

/-- One word for each condition of R97, each with a single fault. -/
theorem test_witness_IllegalWordsExactly :
    (0x010B0C01 : Word).extractLsb' 24 8 ≠ 0 ∧ (0x00000012 : Word).extractLsb' 4 4 ≠ 0 ∧
    ((0x00000000 : Word).extractLsb' 0 4).toNat = 0 ∧ 5 ≤ ((0x00000005 : Word).extractLsb' 0 4).toNat ∧
    (((0x000B0B01 : Word).extractLsb' 0 4).toNat = 1 ∧
      ((0x000B0B01 : Word).extractLsb' 8 8).toNat ∉ [12, 15, 18, 21, 24]) ∧
    (((0x00000102 : Word).extractLsb' 0 4).toNat = 2 ∧ (0x00000102 : Word).extractLsb' 8 16 ≠ 0) ∧
    (((0x00800004 : Word).extractLsb' 0 4).toNat = 4 ∧ (0x00800004 : Word).extractLsb' 8 16 ≠ 0) := by decide

theorem test_witness_AssemblerWordsAreCommandWords :
    SourceLine.wf (.solve 24 255) = true ∧ SourceLine.wf (.solve 24 256) = false := by decide

theorem test_witness_StepRunsTheCommandInCmd :
    (decodeWord (busyWith 0x00000002 []).cmd = .legal .d2i ∧ (busyWith 0x00000002 []).phase = .dispatch ∧
      (busyWith 0x00000002 []).agenda = [] ∧ (busyWith 0x00000002 [.core, .reset]).agenda = .core :: [.reset]) ∧
    (decodeWord (iterAt 0x00171801 spread 7).cmd = .legal (.solve24 23) ∧
      (iterAt 0x00171801 spread 7).phase = .iter ∧ (Instr.solve24 23).isSolve = true) := by decide

theorem test_witness_AddressMapIsExact :
    regAt 0x158 = some (.w 22) ∧ regAt 0x15C = none ∧ regAt 0x3FC = some (.res 127) ∧ regAt 0x3FE = none ∧
    regAt 0x024 = some .diceInHi ∧ regAt 0x028 = none ∧ (regAt 0x020).any Reg.writable = true ∧
    (regAt 0x01C).any Reg.writable = false := by decide

theorem test_witness_ReadAnswersTheCurrentValue :
    ((host [.read 0x028 4]).agenda = [.read 0x028 4] ∧ regAt 0x028 = none) ∧
    ((host [.read 0x200 4]).phase = .idle ∧ regAt 0x200 = some (.res 0)) := by decide

theorem test_witness_ReadsChangeNoRegister :
    (busyWith 0x00171801 [.read 0x201 1]).agenda = .read 0x201 1 :: [] := by decide

theorem test_witness_ReadsDuringARun :
    Inv (busyWith 0x00171801 [.read 0x00C 4]) ∧ (busyWith 0x00171801 [.read 0x00C 4]).phase ≠ .idle ∧
    regAt 0x00C = some .nonce ∧ regAt 0x3FC = some (.res 127) ∧ regAt 0x004 = some .status ∧
    regAt 0x010 = some .rcount :=
  ⟨test_witness_inv_dispatching _ _, by decide⟩

theorem test_witness_OnlyAlignedWordsAreServed :
    ((2 : Nat) ≠ 4 ∧ (host [.write 0x100 2 7]).agenda = .write 0x100 2 7 :: []) ∧
    ((0x101 : PortAddr).toNat % 4 ≠ 0 ∧ (host [.read 0x101 4]).agenda = .read 0x101 4 :: []) := by decide

theorem test_witness_RefusedWritesChangeNothing :
    ((host [.write 0x1FC 4 1]).agenda = .write 0x1FC 4 1 :: [] ∧ regAt 0x1FC = none) ∧
    (regAt 0x200 = some (.res 0) ∧ Reg.writable (.res 0) = false) ∧
    (busyWith 0x00171801 [.write 0x100 4 7]).phase ≠ .idle := by decide

theorem test_witness_OperandWritesStoreTheWord :
    (host [.write 0x158 4 7]).phase = .idle ∧ (host [.write 0x158 4 7]).agenda = .write 0x158 4 7 :: [] ∧
    (0x020 : PortAddr).toNat = 0x020 ∧ (0x024 : PortAddr).toNat = 0x024 ∧
    (0x158 : PortAddr).toNat = 0x100 + 4 * (22 : Fin 23).val ∧
    (0x100 : PortAddr).toNat = 0x100 + 4 * (0 : Fin 23).val := by decide

theorem test_witness_CommandAcceptance :
    launch24.phase = .idle ∧ launch24.agenda = .write 0x000 4 0x00171801 :: [] := by decide

theorem test_witness_HostCannotDisturbARun :
    (busyWith 0x00171801 [.write 0x000 4 4]).phase ≠ .idle ∧
    (busyWith 0x00171801 [.write 0x000 4 4]).agenda = .write 0x000 4 4 :: [] := by decide

theorem test_witness_ResetReplacesTheWholeState :
    (busyWith 0x00171801 [.reset, .core]).agenda = .reset :: [.core] := by decide

theorem test_witness_IllegalWordEndsInError :
    (host [.write 0x000 4 0]).phase = .idle ∧ (host [.write 0x000 4 0]).agenda = [.write 0x000 4 0] ∧
    decodeWord 0 = .illegal .unassignedOp := by decide

/-- Valid at both ends of the range, and invalid at the first and at the last position. -/
theorem test_witness_D2iConvertsOrReportsTheFirstBadCharacter :
    (∀ c ∈ diceChars (dice 0x36313631 0x00000036), 0x31 ≤ c.toNat ∧ c.toNat ≤ 0x36) ∧
    ¬(0x31 ≤ ((0x33323130 : Word).extractLsb' 0 8).toNat) ∧
    (¬(((0x00000037 : Word).extractLsb' 0 8).toNat ≤ 0x36) ∧
      ∀ j, j < 4 → 0x31 ≤ ((0x34333231 : Word).extractLsb' (8 * j) 8).toNat ∧
        ((0x34333231 : Word).extractLsb' (8 * j) 8).toNat ≤ 0x36) := by decide

theorem test_witness_I2dConvertsOrReportsTheRange :
    (7775 : BitVec 16).toNat < 7776 ∧ 7776 ≤ (7776 : BitVec 16).toNat := by decide

/-- The index `IMM16` at the top of its range, and characters at both ends of theirs above ignored bits. -/
theorem test_witness_DiceCodecRoundTrip :
    ((7775 : BitVec 16).toNat < 7776 ∧ (host [.write 0x000 4 (encode (.i2d 7775))]).phase = .idle ∧
      (host [.write 0x000 4 (encode (.i2d 7775))]).agenda = [.write 0x000 4 (encode (.i2d 7775))]) ∧
    let s : State := { host [.write 0x000 4 (encode .d2i)] with diceInLo := 0x36363636, diceInHi := 0xDEADBE31 }
    (∀ c ∈ diceChars s, 0x31 ≤ c.toNat ∧ c.toNat ≤ 0x36) ∧ s.phase = .idle ∧
      s.agenda = [.write 0x000 4 (encode .d2i)] := by decide

theorem test_witness_AcceptedRollsAreUnbiased : (2047 : Nat) < 2048 ∧ (6144 : Nat) ≤ 6144 := by decide

theorem test_witness_LoadDiceSetsTheCharacters :
    (host (scriptLddice 0x31 0x33 0x35 0x32 0x34)).phase = .idle ∧
    (host (scriptLddice 0x31 0x33 0x35 0x32 0x34)).agenda =
      [.write 0x020 4 0x32353331, .write 0x024 4 0x00000034] := by decide

theorem test_witness_SolveReportsLengthMismatch :
    (slots 0x00001801 spread).phase = .dispatch ∧ (0 : Byte).toNat ≠ MnemonicLength.w24.words - 1 := by decide

/-- The highest slot that `SOLVE 24` reads, at the lowest not-found value. -/
theorem test_witness_SolveReportsTheLowestNotFoundSlot :
    let s := slots 0x00171801 fun k => if k = 22 then 2048 else 2047
    s.phase = .dispatch ∧ (23 : Byte).toNat = MnemonicLength.w24.words - 1 ∧
    (22 : Fin 23).val < MnemonicLength.w24.words - 1 ∧ 2048 ≤ s.w[(22 : Fin 23)].toNat ∧
    ∀ j : Fin 23, j.val < 22 → s.w[j].toNat < 2048 := by decide

theorem test_witness_SolveStartsIterating :
    let s := slots 0x000B0C01 fun k => if k = 11 then 2048 else 2047
    s.phase = .dispatch ∧ (11 : Byte).toNat = MnemonicLength.w12.words - 1 ∧
    ∀ k : Fin 23, k.val < MnemonicLength.w12.words - 1 → s.w[k].toNat < 2048 := by decide

theorem test_witness_SolveIterationStoresTheCandidate :
    (iterAt 0x00171801 spread 6).phase = .iter ∧
    (iterAt 0x00171801 spread 6).nonce.toNat + 1 < MnemonicLength.w24.count := by decide

theorem test_witness_SolveLastIterationCompletes :
    (iterAt 0x000B0C01 spread 127).phase = .iter ∧
    (iterAt 0x000B0C01 spread 127).nonce.toNat + 1 = MnemonicLength.w12.count := by decide

theorem test_witness_SolveRunReachesTheBigStepState :
    SolveLaunch .w24 launch24 ∧ 1 ≤ 9 ∧ 9 < 2 + MnemonicLength.w24.count := ⟨test_witness_launch, by decide⟩

theorem test_witness_SolveRunIgnoresInterleavedHostActions :
    let acts : List AgentAction :=
      [.read 0x004 4, .core, .core, .write 0x100 4 7, .core, .core, .read 0x200 4, .core, .core, .core, .core]
    let s := busyWith 0x00171801 (acts ++ [.core])
    s.phase = .dispatch ∧ ResultsClear s ∧ s.done = false ∧ s.errCode = .none ∧ s.errPos = 0 ∧ s.errVal = 0 ∧
    decodeWord s.cmd = .legal (Instr.solve .w24 (BitVec.ofNat 8 (MnemonicLength.w24.words - 1))) ∧
    (∀ k : Fin 23, k.val < MnemonicLength.w24.words - 1 → s.w[k].toNat < 2048) ∧
    s.agenda = acts ++ [.core] ∧ AgentAction.reset ∉ acts ∧ acts.count .core = MnemonicLength.w24.count :=
  ⟨rfl, ⟨rfl, rfl, rfl, rfl, rfl, rfl⟩, rfl, rfl, rfl, rfl, by decide, by decide, rfl, by decide, by decide⟩

theorem test_witness_SolveCandidatesAscend :
    SolveLaunch .w24 launch24 ∧ (6 : Fin 128).val < (7 : Fin 128).val ∧
    (7 : Fin 128).val < MnemonicLength.w24.count := ⟨test_witness_launch, by decide⟩

/-- Two launches that differ in the slots above the known words, in a dice operand and in an old result. -/
theorem test_witness_SolveDependsOnItsSlotsOnly :
    let s : State := host [.write 0x000 4 (solveWord .w12)]
    let s' : State :=
      { s with w := Vector.ofFn fun k : Fin 23 => if k.val < 11 then 0 else 9, diceInLo := 5, idxOut := 6, done := true }
    SolveLaunch .w12 s ∧ SolveLaunch .w12 s' ∧
    ∀ k : Fin 23, k.val < MnemonicLength.w12.words - 1 → s.w[k] = s'.w[k] :=
  ⟨⟨rfl, by decide, by decide⟩, ⟨rfl, by decide, by decide⟩, by decide⟩

theorem test_witness_SolveIsSound :
    SolveLaunch .w24 launch24 ∧ (0 : Fin 128).val < (solveFinal .w24 launch24).rcount.toNat :=
  ⟨test_witness_launch, by decide⟩

theorem test_witness_SolveIsExhaustive : SolveLaunch .w24 launch24 ∧ (2047 : Nat) < 2048 :=
  ⟨test_witness_launch, by decide⟩

theorem test_witness_AccumulatorComputesPack :
    (∀ f ∈ [BitField.mk 2047 11, ⟨1023, 10⟩, ⟨7, 3⟩], 1 ≤ f.width ∧ f.value < 2 ^ f.width) ∧
    totalWidth [⟨2047, 11⟩, ⟨1023, 10⟩, ⟨7, 3⟩] % 8 = 0 := by decide

theorem test_witness_EntropyBlockHasItsLength :
    (List.replicate 23 (2047 : Word)).length = MnemonicLength.w24.words - 1 := by rfl

theorem test_witness_NonceChangesOnlyTheLastByte :
    (List.replicate 10 (2047 : Word)).length + 1 = MnemonicLength.w12.words - 1 ∧
    127 < MnemonicLength.w12.count := by decide

theorem test_witness_PhraseEntropyIsTheEntropyBlock :
    (List.replicate 11 (2047 : Word)).length = MnemonicLength.w12.words - 1 ∧
    (∀ w ∈ List.replicate 11 (2047 : Word), w.toNat < 2048) ∧ 2047 < 2048 :=
  ⟨rfl, fun w h => by rw [List.eq_of_mem_replicate h]; decide, by decide⟩

theorem test_witness_CandidateIsAWordIndex :
    127 < MnemonicLength.w12.count ∧ 15 < 2 ^ MnemonicLength.w12.checksumBits := by decide

theorem test_witness_LegalStatusCombinations :
    Inv (busyWith 0x00171801 []) ∧ Inv ((busyWith 0 []).raise .illegalCmd 0 0) :=
  ⟨test_witness_inv_dispatching _ _, test_witness_inv_failed⟩

theorem test_witness_EveryStepKeepsTheInvariant :
    Inv (busyWith 0x00171801 []) ∧
    step (busyWith 0x00171801 []) = .next { busyWith 0x00171801 [] with phase := .iter } :=
  ⟨test_witness_inv_dispatching _ _, by rfl⟩

theorem test_witness_NoRunIsStuck : Inv { busyWith 0x00171801 [.read 0x200 4] with phase := .iter } :=
  test_witness_inv_iterating

theorem test_witness_EveryRunEnds : Inv (busyWith 0x000B0C01 [.core, .read 0x004 4]) :=
  test_witness_inv_dispatching _ _

theorem test_witness_OtherCommandsEndInOneStep :
    (busyWith 0x00000002 []).phase = .dispatch ∧ CoreTurn (busyWith 0x00000002 []) ∧
    ∀ L n, decodeWord (busyWith 0x00000002 []).cmd ≠ .legal (Instr.solve L n) := by
  refine ⟨rfl, .inl rfl, fun L n h => ?_⟩
  have e : decodeWord (busyWith 0x00000002 []).cmd = .legal .d2i := by decide
  rw [e] at h
  cases L <;> cases h

theorem test_witness_IdleCoreDoesNothing : State.reset.phase = .idle ∧ State.reset.agenda = [] := by decide

theorem test_witness_OnlyACommandWriteStartsARun :
    step launch24 = .next ((State.reset.accept 0x00171801).answer .ok) ∧ launch24.phase = .idle ∧
    ((State.reset.accept 0x00171801).answer .ok).phase ≠ .idle := ⟨by rfl, rfl, by decide⟩

/-- A write to a slot, `CLR` and reset. -/
theorem test_witness_OperandRegistersHaveTheirWriters :
    (ends (step (host [.write 0x158 4 7])) (fun t => t.w != (host [.write 0x158 4 7]).w)) ∧
    (ends (step (slots 0x00000004 spread)) (fun t => t.w != (slots 0x00000004 spread).w)) ∧
    (ends (step { slots 0x00171801 spread with agenda := [.reset] }) (fun t => t.w != (slots 0x00171801 spread).w)) := by
  decide

/-- One step for each error. -/
theorem test_witness_ErrorsComeFromTheirCauses :
    ends (step (busyWith 0x00000000 [])) (fun t => t.errCode == .illegalCmd) ∧
    ends (step (busyWith 0x000A0C01 [])) (fun t => t.errCode == .lengthMismatch) ∧
    ends (step (slots 0x000B0C01 fun k => if k = 10 then 2048 else 0)) (fun t => t.errCode == .invalidWord) ∧
    ends (step (dice 0x36363636 0x00000037)) (fun t => t.errCode == .invalidDiceChar) ∧
    ends (step (busyWith 0x001E6003 [])) (fun t => t.errCode == .indexRange) := by decide

/-- `CMD`, a dice operand, and the first and the last word slot. -/
theorem test_witness_ReadAfterWriteReturnsTheWord :
    ([0x000, 0x024, 0x100, 0x158] : List PortAddr).map regAt =
      [some .cmd, some .diceInHi, some (.w 0), some (.w 22)] ∧
    [Reg.cmd, .diceInHi, .w 0, .w 22].all Reg.writable = true ∧
    (host [.write 0x158 4 0xFFFFFFFF, .read 0x158 4, .core]).phase = .idle ∧
    (host [.write 0x158 4 0xFFFFFFFF, .read 0x158 4, .core]).agenda =
      .write 0x158 4 0xFFFFFFFF :: .read 0x158 4 :: [.core] := by decide

end Sys2Proof.Tests
end

section
/-! PROOFS, `00_scope.md`. The parameters of a length, as functions of its checksum bits alone: the shorter form of
R9. -/

namespace Sys2Proof

/-- The divisions of R9 are exact (conflict C4). -/
theorem MnemonicLength.words_eq (L : MnemonicLength) : L.words = 3 * L.checksumBits := by
  cases L <;> rfl

theorem MnemonicLength.entropyBits_eq (L : MnemonicLength) : L.entropyBits = 32 * L.checksumBits := by
  have hw := L.words_eq
  unfold entropyBits
  omega

theorem MnemonicLength.entropyBytes_eq (L : MnemonicLength) : L.entropyBytes = 4 * L.checksumBits := by
  have he := L.entropyBits_eq
  unfold entropyBytes
  omega

/-- The column heading `total_bits = 11·L` of R9's table. -/
theorem MnemonicLength.totalBits_eq (L : MnemonicLength) : L.totalBits = 11 * L.words := by
  have hw := L.words_eq
  have he := L.entropyBits_eq
  unfold totalBits
  omega

/-- A row of R9's table, in its number `c` of checksum bits. -/
def parameterRow (c : Nat) : List Nat :=
  [3 * c, 32 * c, 4 * c, c, 11 * (3 * c), 11 - c, 2 ^ (11 - c), 8 - c, ((1 <<< c) - 1) <<< (8 - c), 11 * (3 * c - 1)]

/-- The checksum bits of a length determine its row. -/
theorem MnemonicLength.parameters_eq_row (L : MnemonicLength) :
    [L.words, L.entropyBits, L.entropyBytes, L.checksumBits, L.totalBits, L.nonceBits, L.count,
      L.checkShift, L.checkMask, 11 * (L.words - 1)] = parameterRow L.checksumBits := by
  rw [L.totalBits_eq, L.entropyBytes_eq, L.entropyBits_eq, L.words_eq]
  rfl

/-- Settles O43: the five lengths have 4 to 8 checksum bits, and each row of the table is `parameterRow` there. -/
theorem lengthParameterTable : Obligations.LengthParameterTable := by
  unfold Obligations.LengthParameterTable
  simp only [MnemonicLength.parameters_eq_row]
  decide

end Sys2Proof
end

section
/-! PROOFS, `10_state.md`. What the registers read as, who writes them, and the invariant of every run. -/

namespace Sys2Proof.Machine

variable {s t : State}

/-! ### The status word (R22, R38) -/

theorem statusWord_bit0 (s : State) : (statusWord s).getLsbD 0 = s.busy := by
  rw [statusWord, BitVec.getLsbD_append]
  simp

theorem statusWord_bit1 (s : State) : (statusWord s).getLsbD 1 = s.done := by
  rw [statusWord, BitVec.getLsbD_append, BitVec.getLsbD_append]
  simp

theorem statusWord_bit2 (s : State) : (statusWord s).getLsbD 2 = s.err := by
  rw [statusWord, BitVec.getLsbD_append, BitVec.getLsbD_append, BitVec.getLsbD_append]
  simp

theorem statusWord_bit3 (s : State) : (statusWord s).getLsbD 3 = false := by
  rw [statusWord, BitVec.getLsbD_append, BitVec.getLsbD_append, BitVec.getLsbD_append, BitVec.getLsbD_append]
  simp

/-- The four flag bits lie below `ERRCODE` (R22). -/
theorem statusWord_toNat_flags (s : State) :
    ∃ flags < 16, (statusWord s).toNat = s.errCode.code.toNat * 16 + flags := by
  have hb := s.busy.toNat_lt
  have hd := s.done.toNat_lt
  have he := s.err.toNat_lt
  refine ⟨s.err.toNat * 4 + s.done.toNat * 2 + s.busy.toNat, by omega, ?_⟩
  rw [statusWord_toNat]
  omega

theorem statusWord_errCode (s : State) : (statusWord s).extractLsb' 4 4 = s.errCode.code := by
  obtain ⟨flags, hf, hw⟩ := statusWord_toNat_flags s
  have hc := s.errCode.code.isLt
  apply BitVec.eq_of_toNat_eq
  rw [extract_toNat, hw]
  omega

theorem statusWord_reserved (s : State) : (statusWord s).extractLsb' 8 24 = 0 := by
  obtain ⟨flags, hf, hw⟩ := statusWord_toNat_flags s
  have hc := s.errCode.code.isLt
  apply BitVec.eq_of_toNat_eq
  rw [extract_toNat, hw]
  change _ = 0
  omega

/-- Settles O9: bit by bit for the flags, as a quotient of the word for the fields. -/
theorem statusReadsItsFields : Obligations.StatusReadsItsFields := by
  refine ⟨fun s => ⟨statusWord_bit0 s, statusWord_bit1 s, ?_, statusWord_bit3 s, statusWord_errCode s,
    statusWord_reserved s⟩, rfl, rfl, rfl, rfl, rfl, rfl⟩
  calc (statusWord s).getLsbD 2 = decide (s.errCode ≠ .none) := statusWord_bit2 s
    _ = decide (s.errCode.code ≠ 0) := decide_eq_decide.mpr (code_ne_zero_iff s.errCode).symm

/-- Settles O12: the outputs are bits 0 and 1 of `STATUS`. -/
theorem outputsFollowTheStatus : Obligations.OutputsFollowTheStatus :=
  fun s => ⟨statusWord_bit0 s, statusWord_bit1 s⟩

/-! ### The register file (R20, R24 to R33) -/

theorem errInfoWord_toNat (s : State) : (errInfoWord s).toNat = s.errVal.toNat * 256 + s.errPos.toNat := by
  rw [errInfoWord, append_toNat, append_toNat]
  simp

/-- A field read as a 32-bit word keeps the range of its width. -/
theorem field_toNat_lt {n : Nat} (f : BitVec n) (hn : n ≤ 32) : (f.setWidth 32).toNat < 2 ^ n := by
  rw [BitVec.toNat_setWidth_of_le hn]
  exact f.isLt

/-- Settles O10: by the reading of each register, and the width of each field for the bounds. -/
theorem unusedRegisterBitsReadZero : Obligations.UnusedRegisterBitsReadZero := by
  intro s
  refine ⟨rfl, rfl, rfl, rfl, fun _ => rfl, rfl, rfl, rfl, rfl, fun _ => rfl, errInfoWord_toNat s, ?_⟩
  exact ⟨field_toNat_lt s.nonce (by decide), field_toNat_lt s.rcount (by decide),
    field_toNat_lt s.idxOut (by decide), field_toNat_lt s.diceOutHi (by decide),
    fun n => field_toNat_lt s.res[n] (by decide)⟩

theorem reset_readReg (r : Reg) : State.reset.readReg r = 0 := by
  cases r with
  | w k => simp [State.readReg]
  | res n => simp [State.readReg]
  | _ => rfl

/-- A writable register reads the word just written to it (R24, R30, R31, R64). -/
theorem readReg_writeReg_same (s : State) (r : Reg) (v : Word) (hw : r.writable = true) :
    (s.writeReg r v).readReg r = v := by
  cases r with
  | cmd | diceInLo | diceInHi => rfl
  | w k => simp [State.writeReg, State.readReg]
  | _ => cases hw

@[simp] theorem answer_readReg (s : State) (p : PortResponse) (r : Reg) :
    (s.answer p).readReg r = s.readReg r := readReg_frame s s.agenda (some p) s.draws r

@[simp] theorem writeReg_agenda (s : State) (r : Reg) (v : Word) : (s.writeReg r v).agenda = s.agenda := by
  cases r <;> rfl

/-- No register that the host may write is read as a free value (R61, R63). -/
theorem not_drawnWhileBusy_of_writable {r : Reg} (hw : r.writable = true) : r.drawnWhileBusy = false := by
  cases r with
  | nonce | res => cases hw
  | _ => rfl

/-! ### The port (R62, R64) -/

/-- A whole word is written at rest to a writable register (R64). -/
theorem step_write_accepted {addr : PortAddr} {r : Reg} {v : Word} {rest : List AgentAction}
    (ha : s.agenda = .write addr 4 v :: rest) (hp : s.phase = .idle) (hr : regAt addr = some r)
    (hw : r.writable = true) : step s = .next ((State.writeReg { s with agenda := rest } r v).answer .ok) := by
  rw [step_write ha]
  simp [hostWrite, hr, hw, hp]

/-- A writable register is read with its current value at any time (R62, R63). -/
theorem step_read_writable {addr : PortAddr} {r : Reg} {rest : List AgentAction}
    (ha : s.agenda = .read addr 4 :: rest) (hr : regAt addr = some r) (hw : r.writable = true) :
    step s = .next (State.answer { s with agenda := rest } (.okData (s.readReg r))) := by
  have current : State.readReg { s with agenda := rest } r = s.readReg r :=
    readReg_frame s rest s.response s.draws r
  rw [step_read ha]
  simp [hostRead, hostReadReg, hr, not_drawnWhileBusy_of_writable hw, current]

/-- Settles O60: the write stores the word, and the read answers it. -/
theorem readAfterWriteReturnsTheWord : Obligations.ReadAfterWriteReturnsTheWord := by
  intro s a r v rest hp hr hw ha
  obtain ⟨u, write, order, stored⟩ : ∃ u, step s = .next u ∧ u.agenda = .read a 4 :: rest ∧ u.readReg r = v :=
    ⟨_, step_write_accepted ha hp hr hw, by simp, by simp [readReg_writeReg_same _ _ _ hw]⟩
  have read := step_read_writable order hr hw
  rw [stored] at read
  refine ⟨_, (runFor_next write).trans (runFor_next read), rfl, ?_, rfl⟩
  rw [answer_readReg]
  exact (readReg_frame u rest u.response u.draws r).trans stored

/-- Settles O21: a read only answers, and a write is refused because it is not at rest. -/
theorem hostCannotDisturbARun : Obligations.HostCannotDisturbARun := by
  rintro s a rest hp ha (⟨addr, size, rfl⟩ | ⟨addr, size, v, rfl⟩)
  · obtain ⟨p, d, e⟩ := hostRead_frame addr size { s with agenda := rest }
    exact ⟨p, d, (step_read ha).trans (congrArg _ e)⟩
  · rcases hostWrite_cases addr size v { s with agenda := rest } with e | ⟨-, idle, -⟩
    · exact ⟨.err, s.draws, (step_write ha).trans (congrArg _ e)⟩
    · exact absurd idle hp

/-! ### The core at rest (R37, R248) -/

theorem coreStep_idle (h : s.phase = .idle) : coreStep s = .next s := by simp only [coreStep, h]

/-- Settles O56: the empty agenda gives the core its turn, and at rest it does nothing. -/
theorem idleCoreDoesNothing : Obligations.IdleCoreDoesNothing := by
  intro s hp ha
  rw [step_nil ha, coreStep_idle hp]

/-- Settles O23: register by register; the step is one of an idle core. -/
theorem resetValues : Obligations.ResetValues :=
  ⟨rfl, reset_readReg, idleCoreDoesNothing _ rfl rfl⟩

/-! ### Who starts a run and who writes the operands (R30, R31, R34, R39) -/

/-- Only a write to `CMD` takes the sequencer out of `IDLE` (R64, R65). -/
theorem writeReg_phase_of_ne_cmd {r : Reg} (s : State) (v : Word) (hr : r ≠ .cmd) :
    (s.writeReg r v).phase = s.phase := by
  cases r with
  | cmd => exact absurd rfl hr
  | _ => rfl

/-- Settles O57: of the actions at rest only an accepted write leaves `IDLE`, and it must be one to `CMD`. -/
theorem onlyACommandWriteStartsARun : Obligations.OnlyACommandWriteStartsARun := by
  intro s t h hp ht
  rcases step_cases h with ⟨-, hc⟩ | ⟨p, d, rfl⟩ | ⟨addr, v, rest, r, ha, -, hr, -, rfl⟩ | ⟨rest, -, rfl⟩
  · have rest : coreStep { s with agenda := s.agenda.tail } = .next { s with agenda := s.agenda.tail } :=
      coreStep_idle hp
    cases rest.symm.trans hc
    exact absurd hp ht
  · exact absurd hp ht
  · by_cases hcmd : r = .cmd
    · subst hcmd
      obtain rfl : 0x000 = addr := addr_of_regAt addr .cmd hr
      exact ⟨v, rest, ha, rfl, rfl⟩
    · exact absurd ((writeReg_phase_of_ne_cmd { s with agenda := rest } v hcmd).trans hp) ht
  · exact absurd rfl ht

/-- The operand registers hold the same in both states (R30, R31). -/
def SameOperands (s t : State) : Prop := t.w = s.w ∧ t.diceInLo = s.diceInLo ∧ t.diceInHi = s.diceInHi

theorem solveDispatch_operands (L : MnemonicLength) (n : Byte) (s : State) :
    SameOperands s (solveDispatch L n s) := by
  rcases solveDispatch_cases L n s with ⟨-, e⟩ | ⟨-, k, -, e⟩ | ⟨-, -, e⟩ <;> rw [e] <;> exact ⟨rfl, rfl, rfl⟩

theorem iterate_operands (L : MnemonicLength) (s : State) : SameOperands s (iterate L s) := by
  obtain ⟨-, -, -, -, -, -, -, hlo, hhi, hw, -⟩ := iterate_frame L s
  exact ⟨hw, hlo, hhi⟩

/-- The core keeps the operand registers unless it dispatches `CLR` (R210). -/
theorem coreStep_operands (h : coreStep s = .next t) :
    SameOperands s t ∨ (s.phase = .dispatch ∧ decodeWord s.cmd = .legal .clr) := by
  rcases coreStep_cases h with ⟨-, rfl⟩ | ⟨-, L, n, -, -, rfl⟩ | ⟨hp, hd⟩
  · exact .inl ⟨rfl, rfl, rfl⟩
  · exact .inl (iterate_operands L s)
  · rcases hd with ⟨why, -, rfl⟩ | ⟨L, n, -, rfl⟩ | ⟨-, d2i⟩ | ⟨x, -, i2d⟩ | ⟨hclr, -⟩
    · exact .inl ⟨rfl, rfl, rfl⟩
    · exact .inl (solveDispatch_operands L n s)
    · rcases d2i with ⟨x, -, rfl⟩ | ⟨pos, c, -, rfl⟩ <;> exact .inl ⟨rfl, rfl, rfl⟩
    · rcases i2d with ⟨-, rfl⟩ | ⟨-, lo, hi, rfl⟩ <;> exact .inl ⟨rfl, rfl, rfl⟩
    · exact .inr ⟨hp, hclr⟩

/-- A register write leaves the operands, or it is a write to one of them (R64). -/
theorem writeReg_operands (s : State) (r : Reg) (v : Word) :
    SameOperands s (s.writeReg r v) ∨ r = .diceInLo ∨ r = .diceInHi ∨ ∃ k, r = .w k := by
  cases r with
  | diceInLo => exact .inr (.inl rfl)
  | diceInHi => exact .inr (.inr (.inl rfl))
  | w k => exact .inr (.inr (.inr ⟨k, rfl⟩))
  | _ => exact .inl ⟨rfl, rfl, rfl⟩

/-- Settles O58: every other action keeps the three operand registers. -/
theorem operandRegistersHaveTheirWriters : Obligations.OperandRegistersHaveTheirWriters := by
  intro s t h changed
  have notSame : ¬ SameOperands s t := by
    rintro ⟨hw, hlo, hhi⟩
    rcases changed with c | c | c
    exacts [c hw, c hlo, c hhi]
  rcases step_cases h with ⟨turn, hc⟩ | ⟨p, d, rfl⟩ | ⟨addr, v, rest, r, ha, hp, hr, -, rfl⟩ | ⟨rest, ha, -⟩
  · rcases coreStep_operands hc with same | ⟨hp, hclr⟩
    · exact absurd same notSame
    · exact .inr (.inr ⟨hp, turn, hclr⟩)
  · exact absurd ⟨rfl, rfl, rfl⟩ notSame
  · rcases writeReg_operands { s with agenda := rest } r v with same | operand
    · exact absurd same notSame
    · exact .inl ⟨hp, addr, v, rest, r, ha, hr, operand⟩
  · exact .inr (.inl ⟨rest, ha⟩)

/-! ### The invariant: reset, host transactions and acceptance -/

/-- Settles O11: `running` leaves only (1,0,0) during a run, and at rest an error comes with `DONE`. -/
theorem legalStatusCombinations : Obligations.LegalStatusCombinations := by
  intro s inv
  by_cases hp : s.phase = .idle
  · by_cases he : s.errCode = .none
    · cases hd : s.done <;> simp [hp, he]
    · obtain ⟨hd, -⟩ := inv.failed he
      simp [hp, he, hd]
  · obtain ⟨hd, he, -⟩ := inv.running hp
    simp [hp, he, hd]

theorem reset_resultsClear : ResultsClear State.reset := ⟨rfl, rfl, rfl, rfl, rfl, rfl⟩

/-- Settles O51: at reset the sequencer is at rest and every register is 0. -/
theorem invariantHoldsAtReset : Obligations.InvariantHoldsAtReset where
  running hp := absurd rfl hp
  dispatching _ := reset_resultsClear
  iterating hp := by cases hp
  noErrInfo _ := ⟨rfl, rfl⟩
  failed he := absurd rfl he
  quiet _ _ := ⟨rfl, reset_resultsClear⟩
  atRest _ := ⟨rfl, .inl rfl⟩
  resAbove _ m _ := by simp
  idxRange := by decide

/-- The invariant says nothing of the model's own fields, and at rest nothing of the operand registers. -/
theorem Inv.setOperands (inv : Inv s) (lo hi : Word) (w : Vector Word 23) (hw : s.phase = .idle ∨ w = s.w)
    (g : List AgentAction) (p : Option PortResponse) (d : Nat) :
    Inv { s with diceInLo := lo, diceInHi := hi, w := w, agenda := g, response := p, draws := d } := by
  have clear (c : ResultsClear s) : ResultsClear
      { s with diceInLo := lo, diceInHi := hi, w := w, agenda := g, response := p, draws := d } :=
    ⟨c.nonce, c.rcount, c.idxOut, c.diceOutLo, c.diceOutHi, c.res⟩
  exact {
    running := inv.running
    dispatching := fun hp => clear (inv.dispatching hp)
    iterating := fun hp => by
      obtain idle | rfl := hw
      · exact absurd (idle.symm.trans hp) nofun
      · obtain ⟨L, it⟩ := inv.iterating hp
        exact ⟨L, it.command, it.inRange, it.found, it.results⟩
    noErrInfo := inv.noErrInfo
    failed := fun he => (inv.failed he).imp_right clear
    quiet := fun hp hd => (inv.quiet hp hd).imp_right clear
    atRest := inv.atRest
    resAbove := inv.resAbove
    idxRange := inv.idxRange }

/-- The invariant says nothing of the model's own fields. -/
theorem Inv.frame (inv : Inv s) (g : List AgentAction) (p : Option PortResponse) (d : Nat) :
    Inv { s with agenda := g, response := p, draws := d } :=
  inv.setOperands s.diceInLo s.diceInHi s.w (.inr rfl) g p d

theorem Inv.answer (inv : Inv s) (p : PortResponse) : Inv (s.answer p) := inv.frame s.agenda (some p) s.draws

/-- `CLR` and reset leave the reset state but for the model's own fields (R210, R270). -/
theorem inv_clearCore (s : State) : Inv s.clearCore :=
  Inv.frame invariantHoldsAtReset s.agenda s.response s.draws

/-- Acceptance clears every result and every flag (R65). -/
theorem inv_accept (s : State) (v : Word) : Inv (s.accept v) where
  running _ := ⟨rfl, rfl, rfl, rfl, rfl, rfl⟩
  dispatching _ := ⟨rfl, rfl, rfl, rfl, rfl, rfl⟩
  iterating hp := by cases hp
  noErrInfo _ := ⟨rfl, rfl⟩
  failed he := absurd rfl he
  quiet hp := by cases hp
  atRest hp := by cases hp
  resAbove hp := by cases hp
  idxRange := by simp

theorem Inv.writeReg (inv : Inv s) (hp : s.phase = .idle) (r : Reg) (v : Word) : Inv (s.writeReg r v) := by
  cases r with
  | cmd => exact inv_accept s v
  | diceInLo => exact inv.setOperands v s.diceInHi s.w (.inl hp) s.agenda s.response s.draws
  | diceInHi => exact inv.setOperands s.diceInLo v s.w (.inl hp) s.agenda s.response s.draws
  | w k => exact inv.setOperands s.diceInLo s.diceInHi (s.w.set k v) (.inl hp) s.agenda s.response s.draws
  | _ => exact inv

/-! ### The invariant: dispatch steps -/

/-- A digit of a dice character is below 6 (R190). -/
theorem digitValue_lt {c : Byte} (h : isDiceChar c = true) : digitValue c < 6 := by
  rw [isDiceChar_iff] at h
  unfold digitValue Config.charOne
  omega

/-- The index of a scan has as many base-6 digits as there are characters (R192). -/
theorem scanDice_index_lt : ∀ (cs : List Byte) {pos acc x : Nat}, scanDice pos acc cs = .index x →
    x < (acc + 1) * 6 ^ cs.length
  | [], pos, acc, x, h => by
    cases h
    simp
  | c :: cs, pos, acc, x, h => by
    unfold scanDice at h
    split at h
    · rename_i hc
      have hd := digitValue_lt hc
      calc x < (acc * 6 + digitValue c + 1) * 6 ^ cs.length := scanDice_index_lt cs h
        _ ≤ ((acc + 1) * 6) * 6 ^ cs.length := Nat.mul_le_mul_right _ (by omega)
        _ = (acc + 1) * 6 ^ (c :: cs).length := by rw [List.length_cons, pow_succ]; ring
    · cases h

/-- Five characters give an index below `DICE_SPACE` (R8). -/
theorem diceIndex_lt {x : Nat} (h : scanDice 0 0 (diceChars s) = .index x) : x < 7776 := by
  have bound := scanDice_index_lt _ h
  simpa [diceChars] using bound

/-- A command that ends in its dispatch step leaves no candidates, and a failed one no results at all. -/
theorem inv_of_done (hp : t.phase = .idle) (hdone : t.done = true) (hnonce : t.nonce = 0) (hrcount : t.rcount = 0)
    (hres : t.res = Vector.replicate 128 0) (hidx : t.idxOut.toNat < 7776)
    (hinfo : t.errCode = .none → t.errPos = 0 ∧ t.errVal = 0) (hfailed : t.errCode ≠ .none → ResultsClear t) :
    Inv t where
  running h := absurd hp h
  dispatching h := by rw [hp] at h; cases h
  iterating h := by rw [hp] at h; cases h
  noErrInfo := hinfo
  failed he := ⟨hdone, hfailed he⟩
  quiet _ h := by rw [hdone] at h; cases h
  atRest _ := ⟨hnonce.trans hrcount.symm, .inl hrcount⟩
  resAbove _ m _ := by simp [hres]
  idxRange := hidx

/-- `raise` in a dispatch step (R237). -/
theorem Inv.raise (inv : Inv s) (hp : s.phase = .dispatch) {e : ErrCode} (he : e ≠ .none) (pos val : Byte) :
    Inv (s.raise e pos val) := by
  obtain ⟨hnonce, hrcount, hidx, hlo, hhi, hres⟩ := inv.dispatching hp
  exact inv_of_done rfl rfl hnonce hrcount hres inv.idxRange (fun h => absurd h he)
    (fun _ => ⟨hnonce, hrcount, hidx, hlo, hhi, hres⟩)

/-- `complete` after a conversion of the codec (R192, R194, R238). -/
theorem Inv.complete_codec (inv : Inv s) (hp : s.phase = .dispatch) {x : BitVec 13} (hx : x.toNat < 7776)
    (lo : Word) (hi : Byte) :
    Inv ({ s with idxOut := x, diceOutLo := lo, diceOutHi := hi } : State).complete := by
  obtain ⟨hnonce, hrcount, -, -, -, hres⟩ := inv.dispatching hp
  obtain ⟨-, hnone, -⟩ := inv.running (by simp [hp])
  exact inv_of_done rfl rfl hnonce hrcount hres hx inv.noErrInfo (fun h => absurd hnone h)

/-- Between two iterations of a `SOLVE` nothing else of the invariant is at stake (R63, R124). -/
theorem inv_of_iterating {L : MnemonicLength} (it : Iterating t L) (hp : t.phase = .iter)
    (hrun : t.done = false ∧ t.errCode = .none ∧ t.rcount = 0 ∧ t.idxOut = 0 ∧ t.diceOutLo = 0 ∧ t.diceOutHi = 0)
    (hinfo : t.errPos = 0 ∧ t.errVal = 0) : Inv t := by
  obtain ⟨hdone, hnone, hrcount, hidx, hdice⟩ := hrun
  exact {
    running := fun _ => ⟨hdone, hnone, hrcount, hidx, hdice⟩
    dispatching := fun h => by rw [hp] at h; cases h
    iterating := fun _ => ⟨L, it⟩
    noErrInfo := fun _ => hinfo
    failed := fun he => absurd hnone he
    quiet := fun h => by rw [hp] at h; cases h
    atRest := fun h => by rw [hp] at h; cases h
    resAbove := fun h => by rw [hp] at h; cases h
    idxRange := by simp [hidx] }

/-- During a run `ERRINFO` is 0 (R26, R63). -/
theorem Inv.errInfo_of_running (inv : Inv s) (hp : s.phase ≠ .idle) : s.errPos = 0 ∧ s.errVal = 0 := by
  obtain ⟨-, hnone, -⟩ := inv.running hp
  exact inv.noErrInfo hnone

/-- The checks of a `SOLVE` end in an error, or they start its iterations at nonce 0 (R121 to R123). -/
theorem Inv.solveDispatch (inv : Inv s) (hp : s.phase = .dispatch) {L : MnemonicLength} {n : Byte}
    (hd : decodeWord s.cmd = .legal (Instr.solve L n)) : Inv (solveDispatch L n s) := by
  rcases solveDispatch_cases L n s with ⟨-, e⟩ | ⟨-, k, -, e⟩ | ⟨hn, hfound, e⟩ <;> rw [e]
  · exact inv.raise hp (by decide) _ _
  · exact inv.raise hp (by decide) _ _
  · have busy : s.phase ≠ .idle := by simp [hp]
    have hcount : n = BitVec.ofNat 8 L.known := by rw [known_eq, ← hn]; simp
    obtain ⟨hnonce, -, -, -, -, hres⟩ := inv.dispatching hp
    have start : Iterating { s with phase := .iter } L :=
      { command := hcount ▸ hd
        inRange := by simp [hnonce, MnemonicLength.count]
        found := firstNotFound_none.mp hfound
        results := fun m => by simp [hnonce, hres] }
    exact inv_of_iterating start rfl (inv.running busy) (inv.errInfo_of_running busy)

/-! ### The invariant: iteration steps -/

/-- Storing the candidate of the next nonce extends the results by one (R124). -/
theorem ResHoldsBelow.store {L : MnemonicLength} {ws : List Word} {n : Nat} {res : Vector WordIndex 128}
    (h : ResHoldsBelow L ws n res) :
    ResHoldsBelow L ws (n + 1) (res.setIfInBounds n (BitVec.ofNat 11 (candidate L ws n))) := by
  intro m
  by_cases hm : n = m.val
  · subst hm
    simp
  · have hlt : m.val < n + 1 ↔ m.val < n := by omega
    simpa [hlt, hm] using h m

/-- A number up to `NRES` fits the 8 bits of `NONCE` and `RCOUNT` (R27, R28). -/
theorem byte_toNat_of_le {n : Nat} (h : n ≤ 128) : (BitVec.ofNat 8 n).toNat = n := by
  rw [BitVec.toNat_ofNat]
  omega

/-- An iteration that is not the last goes on at the next nonce (R124). -/
theorem Inv.iterate_of_ne {L : MnemonicLength} (inv : Inv s) (hp : s.phase = .iter) (it : Iterating s L)
    (hnext : s.nonce.toNat + 1 ≠ L.count) : Inv (iterate L s) := by
  have busy : s.phase ≠ .idle := by simp [hp]
  have hin : s.nonce.toNat + 1 < L.count := Nat.lt_of_le_of_ne it.inRange hnext
  have hnonce := byte_toNat_of_le (hin.le.trans (count_le L))
  rw [Machine.iterate_of_ne L s hnext]
  refine inv_of_iterating (L := L) ?_ hp (inv.running busy) (inv.errInfo_of_running busy)
  exact {
    command := it.command
    inRange := hnonce.trans_lt hin
    found := it.found
    results := hnonce.symm ▸ it.results.store }

/-- The last iteration leaves `NONCE` and `RCOUNT` at the count of the `SOLVE` (R125). -/
theorem Inv.iterate_of_eq {L : MnemonicLength} (inv : Inv s) (hp : s.phase = .iter) (it : Iterating s L)
    (hlast : s.nonce.toNat + 1 = L.count) : Inv (iterate L s) := by
  have hcount := byte_toNat_of_le (count_le L)
  have stored := it.results.store
  obtain ⟨-, hnone, -⟩ := inv.running (by simp [hp])
  rw [Machine.iterate_of_eq L s hlast]
  exact {
    running := fun h => absurd rfl h
    dispatching := nofun
    iterating := nofun
    noErrInfo := inv.noErrInfo
    failed := fun he => absurd hnone he
    quiet := nofun
    atRest := fun _ => ⟨rfl, .inr ⟨L, it.command, hcount⟩⟩
    resAbove := fun _ m hm => by
      have above : ¬ m.val < s.nonce.toNat + 1 := by rw [hlast, ← hcount]; exact hm.not_gt
      rw [stored m, if_neg above]
    idxRange := inv.idxRange }

/-- One iteration of the `SOLVE` in `CMD` (R124, R125). -/
theorem Inv.iterate (inv : Inv s) (hp : s.phase = .iter) {L : MnemonicLength} {n : Byte}
    (hd : decodeWord s.cmd = .legal (Instr.solve L n)) : Inv (iterate L s) := by
  obtain ⟨L', it⟩ := inv.iterating hp
  obtain ⟨rfl, -⟩ := solve_injective (Decoded.legal.inj (it.command.symm.trans hd))
  by_cases hlast : s.nonce.toNat + 1 = L'.count
  · exact inv.iterate_of_eq hp it hlast
  · exact inv.iterate_of_ne hp it hlast

/-! ### The invariant: every step -/

theorem Inv.coreStep (inv : Inv s) (h : coreStep s = .next t) : Inv t := by
  rcases coreStep_cases h with ⟨-, rfl⟩ | ⟨hp, L, n, hd, -, rfl⟩ | ⟨hp, dispatched⟩
  · exact inv
  · exact inv.iterate hp hd
  · rcases dispatched with ⟨why, -, rfl⟩ | ⟨L, n, hd, rfl⟩ | ⟨-, d2i⟩ | ⟨x, -, i2d⟩ | ⟨-, rfl⟩
    · exact inv.raise hp (by decide) 0 0
    · exact inv.solveDispatch hp hd
    · rcases d2i with ⟨x, hscan, rfl⟩ | ⟨pos, c, -, rfl⟩
      · have hx := diceIndex_lt hscan
        have hx13 : (BitVec.ofNat 13 x).toNat < 7776 := by rw [BitVec.toNat_ofNat]; omega
        exact inv.complete_codec hp hx13 s.diceOutLo s.diceOutHi
      · exact inv.raise hp (by decide) _ c
    · rcases i2d with ⟨-, rfl⟩ | ⟨-, lo, hi, rfl⟩
      · exact inv.raise hp (by decide) 0 0
      · exact inv.complete_codec hp inv.idxRange lo hi
    · exact inv_clearCore s

/-- Settles O52, action by action: the core's turn, a transaction that changes no register, an accepted write, reset. -/
theorem everyStepKeepsTheInvariant : Obligations.EveryStepKeepsTheInvariant := by
  intro s t inv h
  rcases step_cases h with ⟨-, hc⟩ | ⟨p, d, rfl⟩ | ⟨addr, v, rest, r, -, hp, -, -, rfl⟩ | ⟨rest, -, rfl⟩
  · exact (inv.frame s.agenda.tail s.response s.draws).coreStep hc
  · exact inv.frame s.agenda.tail (some p) d
  · exact ((inv.frame rest s.response s.draws).writeReg hp r v).answer .ok
  · exact inv_clearCore _

end Sys2Proof.Machine
end

section
/-! PROOFS, `20_memory.md`. The address map, what a read answers, which writes are refused and what an accepted one
stores, and runs of several steps: none is stuck, and a `SOLVE` ends the same whatever the host does meanwhile. -/

namespace Sys2Proof

/-- Decoding the word of a command gives the command back (R90, R91). -/
theorem decodeWord_encode (i : Instr) : decodeWord (encode i) = .legal i := by
  rcases instr_cases i with ⟨L, n, rfl⟩ | rfl | ⟨x, rfl⟩ | rfl
  · rw [encode_solve, decode_encodeS, decodeSolve_words]
  · decide
  · exact decode_encodeI x
  · decide

namespace Machine

variable {s t : State}

/-! ### The address map (R20, R61) -/

/-- Every register is at its address. -/
@[simp] theorem regAt_addr (r : Reg) : regAt r.addr = some r := by
  cases r with
  | w k => exact regAt_w k
  | res n => exact regAt_res n
  | _ => decide

/-- An address decodes to a register exactly when it is the register's. -/
theorem regAt_eq_some_iff {a : PortAddr} {r : Reg} : regAt a = some r ↔ a.toNat = r.addr.toNat := by
  rw [BitVec.toNat_inj]
  constructor
  · intro h
    exact (addr_of_regAt a r h).symm
  · rintro rfl
    exact regAt_addr r

/-- A register stands at a fixed address, or it is a word slot or a result (R20). -/
theorem exists_reg_iff {P : Reg → Prop} :
    (∃ r, P r) ↔ (∃ x ∈ fixedRegs, P x.2) ∨ (∃ k, P (.w k)) ∨ ∃ n, P (.res n) := by
  constructor
  · rintro ⟨r, h⟩
    cases r with
    | w k => exact .inr (.inl ⟨k, h⟩)
    | res n => exact .inr (.inr ⟨n, h⟩)
    | _ => simp [fixedRegs, h]
  · rintro (⟨x, -, h⟩ | ⟨k, h⟩ | ⟨n, h⟩)
    exacts [⟨_, h⟩, ⟨_, h⟩, ⟨_, h⟩]

theorem addr_w_toNat (k : Fin 23) : (Reg.w k).addr.toNat = 0x100 + 4 * k.val := by
  simp only [Reg.addr, BitVec.toNat_ofNat]
  omega

theorem addr_res_toNat (n : Fin 128) : (Reg.res n).addr.toNat = 0x200 + 4 * n.val := by
  simp only [Reg.addr, BitVec.toNat_ofNat]
  omega

/-- Every register is at a multiple of 4 (R61). -/
theorem addr_aligned (r : Reg) : r.addr.toNat % 4 = 0 := by
  cases r with
  | w k => rw [addr_w_toNat]; omega
  | res n => rw [addr_res_toNat]; omega
  | _ => rfl

/-- A misaligned address is not mapped (R61). -/
theorem regAt_of_misaligned {a : PortAddr} (h : a.toNat % 4 ≠ 0) : regAt a = none := by
  cases hr : regAt a with
  | none => rfl
  | some r => exact absurd (regAt_eq_some_iff.mp hr ▸ addr_aligned r) h

/-- The mapped addresses (R61). -/
theorem regAt_isSome_iff (a : PortAddr) : (regAt a).isSome = true ↔
    (a.toNat ∈ [0x000, 0x004, 0x008, 0x00C, 0x010, 0x014, 0x018, 0x01C, 0x020, 0x024] ∨
      (∃ k, k < 23 ∧ a.toNat = 0x100 + 4 * k) ∨ ∃ n, n < 128 ∧ a.toNat = 0x200 + 4 * n) := by
  rw [Option.isSome_iff_exists]
  simp only [regAt_eq_some_iff, exists_reg_iff, addr_w_toNat, addr_res_toNat, Fin.exists_iff, exists_prop]
  simp [fixedRegs, Reg.addr]

/-- The writable addresses (R61). -/
theorem regAt_writable_iff (a : PortAddr) : (∃ r, regAt a = some r ∧ r.writable = true) ↔
    (a.toNat = 0x000 ∨ a.toNat = 0x020 ∨ a.toNat = 0x024 ∨ ∃ k, k < 23 ∧ a.toNat = 0x100 + 4 * k) := by
  simp only [regAt_eq_some_iff, exists_reg_iff, addr_w_toNat, addr_res_toNat, Fin.exists_iff]
  simp [fixedRegs, Reg.addr, Reg.writable, or_assoc]

/-- Settles O13: an address decodes to the register whose address it is, and to no other. -/
theorem addressMapIsExact : Obligations.AddressMapIsExact :=
  ⟨by decide, regAt_w, regAt_res, regAt_isSome_iff, regAt_writable_iff⟩

/-! ### Reads (R62, R63) -/

/-- Settles O15: a read answers, and it may draw. -/
theorem readsChangeNoRegister : Obligations.ReadsChangeNoRegister := by
  intro s a size rest ha
  obtain ⟨p, d, e⟩ := hostRead_frame a size { s with agenda := rest }
  exact ⟨p, d, (step_read ha).trans (congrArg _ e)⟩

/-- A read that is no whole word, or of an unmapped address, is answered `ERR` (R62, R66). -/
theorem step_read_refused {a : PortAddr} {size : Nat} {rest : List AgentAction}
    (ha : s.agenda = .read a size :: rest) (h : size ≠ 4 ∨ regAt a = none) :
    step s = .next { s with agenda := rest, response := some .err } := by
  rw [step_read ha]
  rcases h with h | h <;> simp [hostRead, h, State.answer]

/-- A whole word of a mapped register is read (R62, R63). -/
theorem step_read_mapped {a : PortAddr} {r : Reg} {rest : List AgentAction} (ha : s.agenda = .read a 4 :: rest)
    (hr : regAt a = some r) : step s = .next (hostReadReg r { s with agenda := rest }) := by
  rw [step_read ha]
  simp [hostRead, hr]

/-- The registers that a read during a run draws (R63). -/
theorem drawnWhileBusy_iff {r : Reg} : r.drawnWhileBusy = true ↔ r = .nonce ∨ ∃ n, r = .res n := by
  cases r <;> simp [Reg.drawnWhileBusy]

/-- A register is read with its current value, unless it is drawn (R62, R63). -/
theorem step_read_current {a : PortAddr} {r : Reg} {rest : List AgentAction} (ha : s.agenda = .read a 4 :: rest)
    (hr : regAt a = some r) (h : s.phase = .idle ∨ r.drawnWhileBusy = false) :
    step s = .next { s with agenda := rest, response := some (.okData (s.readReg r)) } := by
  have current : State.readReg { s with agenda := rest } r = s.readReg r :=
    readReg_frame s rest s.response s.draws r
  have undrawn : ¬(s.phase ≠ .idle ∧ r.drawnWhileBusy = true) := by
    rintro ⟨hp, hd⟩
    rcases h with h | h
    · exact hp h
    · simp [h] at hd
  rw [step_read_mapped ha hr]
  simp [hostReadReg, undrawn, current, State.answer]

/-- During a run `NONCE` and `RES` are read with a free value (R63). -/
theorem step_read_drawn {a : PortAddr} {r : Reg} {rest : List AgentAction} (ha : s.agenda = .read a 4 :: rest)
    (hr : regAt a = some r) (hp : s.phase ≠ .idle) (hd : r.drawnWhileBusy = true) :
    step s = .next { s with
      agenda := rest, response := some (.okData (Config.draw s.draws)), draws := s.draws + 1 } := by
  rw [step_read_mapped ha hr]
  simp [hostReadReg, hp, hd]

/-- Settles O14: an unmapped address is refused, and at rest nothing is drawn. -/
theorem readAnswersTheCurrentValue : Obligations.ReadAnswersTheCurrentValue := by
  intro s a rest ha
  constructor
  · intro hr
    exact step_read_refused ha (.inr hr)
  · intro r hr hp
    exact step_read_current ha hr (.inl hp)

/-- During a run `STATUS` reads `BUSY` and nothing else (R63). -/
theorem Inv.statusWord_of_running (inv : Inv s) (hp : s.phase ≠ .idle) : statusWord s = 0x00000001 := by
  obtain ⟨hdone, hnone, -⟩ := inv.running hp
  apply BitVec.eq_of_toNat_eq
  rw [statusWord_toNat]
  simp [hdone, hnone, hp, ErrCode.code]

/-- During a run the registers cleared at acceptance, but for `NONCE` and `RES`, read 0 (R63, R65). -/
theorem Inv.readReg_cleared (inv : Inv s) (hp : s.phase ≠ .idle) {r : Reg}
    (hr : r ∈ [.errInfo, .rcount, .idxOut, .diceOutLo, .diceOutHi]) : s.readReg r = 0 := by
  obtain ⟨-, -, hrcount, hidx, hlo, hhi⟩ := inv.running hp
  obtain ⟨hpos, hval⟩ := inv.errInfo_of_running hp
  simp only [List.mem_cons, List.not_mem_nil, or_false] at hr
  rcases hr with rfl | rfl | rfl | rfl | rfl <;>
    simp [State.readReg, errInfoWord, hpos, hval, hrcount, hidx, hlo, hhi]

/-- Settles O16: a drawn register gives the free value, another its current one, which the invariant fixes. -/
theorem readsDuringARun : Obligations.ReadsDuringARun := by
  intro s a r rest inv hp ha hr
  rw [← drawnWhileBusy_iff]
  refine ⟨step_read_drawn ha hr hp, ?_, ?_, inv.readReg_cleared hp⟩
  · intro hd
    exact step_read_current ha hr (.inr (Bool.eq_false_of_not_eq_true hd))
  · rintro rfl
    exact inv.statusWord_of_running hp

/-! ### Refused accesses (R64, R66) -/

/-- A write is refused in each of the three cases of R64, and when it is no whole word (R66). -/
theorem step_write_refused {a : PortAddr} {size : Nat} {v : Word} {rest : List AgentAction}
    (ha : s.agenda = .write a size v :: rest)
    (h : size ≠ 4 ∨ regAt a = none ∨ (∃ r, regAt a = some r ∧ r.writable = false) ∨ s.phase ≠ .idle) :
    step s = .next { s with agenda := rest, response := some .err } := by
  rcases hostWrite_cases a size v { s with agenda := rest } with e | ⟨hsize, hp, r, hr, hw, -⟩
  · exact (step_write ha).trans (congrArg _ e)
  · rcases h with h | h | ⟨r', h, hw'⟩ | h
    · exact absurd hsize h
    · simp [h] at hr
    · obtain rfl := Option.some.inj (hr.symm.trans h)
      simp [hw] at hw'
    · exact absurd hp h

/-- Settles O17: a misaligned address is unmapped, so both causes are among those of `ERR`. -/
theorem onlyAlignedWordsAreServed : Obligations.OnlyAlignedWordsAreServed := by
  intro s a size v rest h ha
  have refused : size ≠ 4 ∨ regAt a = none := h.imp_right regAt_of_misaligned
  rcases ha with ha | ha
  · exact step_read_refused ha refused
  · exact step_write_refused ha (refused.imp_right .inl)

/-- Settles O18: the three cases of R64. -/
theorem refusedWritesChangeNothing : Obligations.RefusedWritesChangeNothing :=
  fun _ _ _ _ ha h => step_write_refused ha (.inr h)

/-! ### Accepted writes (R64, R65) -/

/-- Settles O19: at rest the write is accepted, and each register takes the word. -/
theorem operandWritesStoreTheWord : Obligations.OperandWritesStoreTheWord := by
  intro s a v rest hp ha
  refine ⟨fun h => ?_, fun h => ?_, fun k h => ?_⟩
  · exact step_write_accepted (r := .diceInLo) ha hp (regAt_eq_some_iff.mpr h) rfl
  · exact step_write_accepted (r := .diceInHi) ha hp (regAt_eq_some_iff.mpr h) rfl
  · exact step_write_accepted (r := .w k) ha hp (regAt_eq_some_iff.mpr (h.trans (addr_w_toNat k).symm)) rfl

/-- Settles O20: the write to `CMD` is accepted whatever the word. -/
theorem commandAcceptance : Obligations.CommandAcceptance := by
  intro s v rest hp ha
  exact step_write_accepted ha hp (regAt_addr .cmd) rfl

/-! ### The core's turn by the command in `CMD` (R91, R124) -/

theorem coreStep_of_dispatch {i : Instr} (hp : s.phase = .dispatch) (hd : decodeWord s.cmd = .legal i) :
    coreStep s = exec i s := by
  simp only [coreStep, hp, dispatchStep, hd]

/-- Settles O8: the placed word decodes to its command, and the core's turn stands first. -/
theorem placedCommandRunsNext : Obligations.PlacedCommandRunsNext := by
  intro s i
  rw [State.withFetchWord, tableWord_toNat]
  exact (step_core rfl).trans (coreStep_of_dispatch (s := s.accept (encode i)) rfl (decodeWord_encode i))

theorem coreStep_solve_dispatch {L : MnemonicLength} {n : Byte} (hp : s.phase = .dispatch)
    (hd : decodeWord s.cmd = .legal (Instr.solve L n)) : coreStep s = .next (solveDispatch L n s) := by
  rw [coreStep_of_dispatch hp hd, exec_solve]
  simp only [solveStep, hp]

theorem coreStep_solve_iter {L : MnemonicLength} {n : Byte} (hp : s.phase = .iter)
    (hd : decodeWord s.cmd = .legal (Instr.solve L n)) (hn : s.nonce.toNat < L.count) :
    coreStep s = .next (iterate L s) := by
  simp only [coreStep, hp, iterationStep, hd, isSolve_solve, if_true, exec_solve, solveStep, solveIterate, hn]

/-! ### No run is stuck -/

/-- Every word in `CMD` has its dispatch step (R91, R97). -/
theorem coreStep_next_of_dispatch (hp : s.phase = .dispatch) : ∃ t, coreStep s = .next t := by
  cases hd : decodeWord s.cmd with
  | illegal why => exact ⟨s.raise .illegalCmd 0 0, by simp only [coreStep, hp, dispatchStep, hd]⟩
  | legal i =>
    rw [coreStep_of_dispatch hp hd]
    rcases instr_cases i with ⟨L, n, rfl⟩ | rfl | ⟨x, rfl⟩ | rfl
    · exact ⟨_, (coreStep_of_dispatch hp hd).symm.trans (coreStep_solve_dispatch hp hd)⟩
    · rcases execD2i_cases s with ⟨x, -, e⟩ | ⟨pos, c, -, e⟩ <;> exact ⟨_, e⟩
    · rcases execI2d_cases x s with ⟨-, e⟩ | ⟨-, lo, hi, e⟩ <;> exact ⟨_, e⟩
    · exact ⟨_, rfl⟩

/-- With the invariant the core's turn reaches neither of the two faults (log entry 5). -/
theorem Inv.coreStep_next (inv : Inv s) : ∃ t, Machine.coreStep s = .next t := by
  cases hp : s.phase with
  | idle => exact ⟨s, coreStep_idle hp⟩
  | dispatch => exact coreStep_next_of_dispatch hp
  | iter =>
    obtain ⟨L, it⟩ := inv.iterating hp
    exact ⟨_, coreStep_solve_iter hp it.command it.inRange⟩

/-- With the invariant every action answers a next state. -/
theorem Inv.step_next (inv : Inv s) : ∃ t, step s = .next t := by
  cases ha : s.agenda with
  | nil => rw [step_nil ha]; exact inv.coreStep_next
  | cons a rest =>
    cases a with
    | core => rw [step_core ha]; exact (inv.frame rest s.response s.draws).coreStep_next
    | read addr size => exact ⟨_, step_read ha⟩
    | write addr size v => exact ⟨_, step_write ha⟩
    | reset => exact ⟨_, step_reset ha⟩

/-- Settles O53, by induction on the number of steps: a step answers a next state, which has the invariant. -/
theorem noRunIsStuck : Obligations.NoRunIsStuck := by
  intro s k inv
  induction k generalizing s with
  | zero => exact ⟨s, rfl⟩
  | succ k ih =>
    obtain ⟨t, ht⟩ := inv.step_next
    obtain ⟨u, hu⟩ := ih t (everyStepKeepsTheInvariant s t inv ht)
    exact ⟨u, (runFor_next ht).trans hu⟩

/-! ### A `SOLVE` with host transactions between its core steps (R70, R72) -/

/-- A `SOLVE` without error is in its dispatch step or between two of its iterations (R121 to R124). -/
structure SolveUnderway (L : MnemonicLength) (s : State) : Prop where
  inv : Inv s
  busy : s.phase ≠ .idle
  command : decodeWord s.cmd = .legal (Instr.solve L (BitVec.ofNat 8 L.known))
  found : ∀ w ∈ knownWords L s, w.toNat < 2048

/-- How many core steps a `SOLVE` without error has before it (R281). -/
def coreStepsLeft (L : MnemonicLength) (s : State) : Nat :=
  match s.phase with
  | .idle => 0
  | .dispatch => L.count + 1
  | .iter => L.count - s.nonce.toNat

/-- What the end of a `SOLVE` takes over from the state at acceptance: the command and the operands (R126, R130). -/
def SameInputs (s t : State) : Prop := t.cmd = s.cmd ∧ SameOperands s t

theorem knownWords_congr (L : MnemonicLength) (hw : t.w = s.w) : knownWords L t = knownWords L s := by
  rw [knownWords, knownWords, hw]

/-- The big-step form depends on nothing else but the model's own fields (R130). -/
theorem solveFinal_congr (L : MnemonicLength) (same : SameInputs s t) (g : List AgentAction)
    (p : Option PortResponse) (d : Nat) :
    ({ solveFinal L t with agenda := g, response := p, draws := d } : State) =
      { solveFinal L s with agenda := g, response := p, draws := d } := by
  obtain ⟨hcmd, hw, hlo, hhi⟩ := same
  simp only [solveFinal, knownWords_congr L hw, hcmd, hw, hlo, hhi]

/-- What a host transaction changes does not touch a `SOLVE` under way. -/
theorem SolveUnderway.frame {L : MnemonicLength} (h : SolveUnderway L s) (g : List AgentAction)
    (p : Option PortResponse) (d : Nat) :
    SolveUnderway L { s with agenda := g, response := p, draws := d } :=
  ⟨h.inv.frame g p d, h.busy, h.command, h.found⟩

/-- The iterations are those of the `SOLVE` in `CMD`. -/
theorem SolveUnderway.iterating {L : MnemonicLength} (h : SolveUnderway L s) (hp : s.phase = .iter) :
    Iterating s L := by
  obtain ⟨L', it⟩ := h.inv.iterating hp
  obtain ⟨rfl, -⟩ := solve_injective (Decoded.legal.inj (it.command.symm.trans h.command))
  exact it

/-- The dispatch step of a `SOLVE` that passes its checks (R123). -/
theorem SolveUnderway.coreStep_dispatch {L : MnemonicLength} (h : SolveUnderway L s) (hp : s.phase = .dispatch) :
    coreStep s = .next { s with phase := .iter } := by
  have hcount : (BitVec.ofNat 8 L.known).toNat = L.words - 1 := byte_toNat_of_le (by have := known_le L; omega)
  rw [coreStep_solve_dispatch hp h.command]
  rcases solveDispatch_cases L (BitVec.ofNat 8 L.known) s with ⟨hn, -⟩ | ⟨-, k, hk, -⟩ | ⟨-, -, e⟩
  · exact absurd hcount hn
  · rw [firstNotFound_none.mpr h.found] at hk
    cases hk
  · rw [e]

/-- A core step before the last one leaves one step fewer and takes nothing from the inputs (R123, R124). -/
theorem SolveUnderway.coreStep_next {L : MnemonicLength} (h : SolveUnderway L s) (hleft : coreStepsLeft L s ≠ 1) :
    ∃ t, coreStep s = .next t ∧ SolveUnderway L t ∧ t.agenda = s.agenda ∧ SameInputs s t ∧
      coreStepsLeft L t + 1 = coreStepsLeft L s := by
  cases hp : s.phase with
  | idle => exact absurd hp h.busy
  | dispatch =>
    have hstep := h.coreStep_dispatch hp
    have hnonce : s.nonce = 0 := (h.inv.dispatching hp).nonce
    refine ⟨_, hstep, ⟨h.inv.coreStep hstep, nofun, h.command, h.found⟩, rfl, ⟨rfl, rfl, rfl, rfl⟩, ?_⟩
    simp [coreStepsLeft, hp, hnonce]
  | iter =>
    have it := h.iterating hp
    have hin := it.inRange
    simp only [coreStepsLeft, hp] at hleft ⊢
    have hnext : s.nonce.toNat + 1 ≠ L.count := by omega
    have hnonce := byte_toNat_of_le (show s.nonce.toNat + 1 ≤ 128 by have := count_le L; omega)
    have hstep := coreStep_solve_iter hp h.command hin
    have hinv := h.inv.coreStep hstep
    rw [iterate_of_ne L s hnext] at hstep hinv
    refine ⟨_, hstep, ⟨hinv, by simp [hp], h.command, h.found⟩, rfl, ⟨rfl, rfl, rfl, rfl⟩, ?_⟩
    simp only [hp, hnonce]
    omega

/-- The results below `count` are those of the big-step form (R126). -/
theorem ResHoldsBelow.eq_solveResults {L : MnemonicLength} {ws : List Word} {res : Vector WordIndex 128}
    (h : ResHoldsBelow L ws L.count res) : res = solveResults L ws := by
  apply Vector.ext
  intro i hi
  rw [solveResults, Vector.getElem_ofFn]
  exact h ⟨i, hi⟩

/-- The last core step ends in the big-step form (R125, R126). -/
theorem SolveUnderway.coreStep_last {L : MnemonicLength} (h : SolveUnderway L s) (hleft : coreStepsLeft L s = 1) :
    coreStep s = .next (solveFinal L s) := by
  cases hp : s.phase with
  | idle => exact absurd hp h.busy
  | dispatch => simp [coreStepsLeft, hp, MnemonicLength.count] at hleft
  | iter =>
    have it := h.iterating hp
    simp only [coreStepsLeft, hp] at hleft
    have hlast : s.nonce.toNat + 1 = L.count := by omega
    have results := it.results.store
    rw [hlast] at results
    obtain ⟨-, hnone, -, hidx, hlo, hhi⟩ := h.inv.running h.busy
    obtain ⟨hpos, hval⟩ := h.inv.errInfo_of_running h.busy
    rw [coreStep_solve_iter hp h.command it.inRange, iterate_of_eq L s hlast, results.eq_solveResults]
    simp only [solveFinal, hnone, hidx, hlo, hhi, hpos, hval]

/-- The core's turn in a `SOLVE` under way, when it is not the last. -/
theorem SolveUnderway.step_turn {L : MnemonicLength} {rest : List AgentAction} (h : SolveUnderway L s)
    (ha : s.agenda = .core :: rest) (hleft : coreStepsLeft L s ≠ 1) :
    ∃ t, step s = .next t ∧ SolveUnderway L t ∧ t.agenda = rest ∧ SameInputs s t ∧
      coreStepsLeft L t + 1 = coreStepsLeft L s := by
  rw [step_core ha]
  exact (h.frame rest s.response s.draws).coreStep_next hleft

/-- A host transaction leaves a `SOLVE` under way as it is (R39, R72). -/
theorem SolveUnderway.step_host {L : MnemonicLength} {a : AgentAction} {rest : List AgentAction}
    (h : SolveUnderway L s) (ha : s.agenda = a :: rest) (hcore : a ≠ .core) (hreset : a ≠ .reset) :
    ∃ t, step s = .next t ∧ SolveUnderway L t ∧ t.agenda = rest ∧ SameInputs s t ∧
      coreStepsLeft L t = coreStepsLeft L s := by
  have host : (∃ addr size, a = .read addr size) ∨ ∃ addr size v, a = .write addr size v := by
    cases a with
    | core => exact absurd rfl hcore
    | reset => exact absurd rfl hreset
    | read addr size => exact .inl ⟨addr, size, rfl⟩
    | write addr size v => exact .inr ⟨addr, size, v, rfl⟩
  obtain ⟨p, d, hstep⟩ := hostCannotDisturbARun s a rest h.busy ha host
  exact ⟨_, hstep, h.frame rest (some p) d, rfl, ⟨rfl, rfl, rfl, rfl⟩, rfl⟩

/-- A `SOLVE` under way ends in its big-step form with the last of its core steps, whatever reads and writes stand
between them: by induction on the actions before that step. -/
theorem SolveUnderway.run {L : MnemonicLength} (acts : List AgentAction) (h : SolveUnderway L s)
    (ha : s.agenda = acts ++ [.core]) (hreset : AgentAction.reset ∉ acts)
    (hleft : acts.count .core + 1 = coreStepsLeft L s) :
    ∃ p d, runFor (acts.length + 1) s =
      .next { solveFinal L s with agenda := [], response := p, draws := d } := by
  induction acts generalizing s with
  | nil =>
    have hend := (h.frame [] s.response s.draws).coreStep_last hleft.symm
    exact ⟨s.response, s.draws, runFor_next ((step_core ha).trans hend)⟩
  | cons a acts ih =>
    rw [List.cons_append] at ha
    rw [List.mem_cons, not_or] at hreset
    obtain ⟨hfirst, hreset⟩ := hreset
    obtain ⟨t, hstep, ht, hagenda, same, hcount⟩ : ∃ t, step s = .next t ∧ SolveUnderway L t ∧
        t.agenda = acts ++ [.core] ∧ SameInputs s t ∧ acts.count .core + 1 = coreStepsLeft L t := by
      by_cases hcore : a = .core
      · subst hcore
        rw [List.count_cons_self] at hleft
        obtain ⟨t, hstep, ht, hagenda, same, hone⟩ := h.step_turn ha (by omega)
        exact ⟨t, hstep, ht, hagenda, same, by omega⟩
      · rw [List.count_cons_of_ne hcore] at hleft
        obtain ⟨t, hstep, ht, hagenda, same, hsame⟩ := h.step_host ha hcore (Ne.symm hfirst)
        exact ⟨t, hstep, ht, hagenda, same, hleft.trans hsame.symm⟩
    obtain ⟨p, d, hrun⟩ := ih ht hagenda hreset hcount
    rw [solveFinal_congr L same] at hrun
    exact ⟨p, d, (runFor_next hstep).trans hrun⟩

/-- A command just accepted has the invariant (R65). -/
theorem inv_of_dispatching (hp : s.phase = .dispatch) (clear : ResultsClear s) (hdone : s.done = false)
    (hnone : s.errCode = .none) (hinfo : s.errPos = 0 ∧ s.errVal = 0) : Inv s where
  running _ := ⟨hdone, hnone, clear.rcount, clear.idxOut, clear.diceOutLo, clear.diceOutHi⟩
  dispatching _ := clear
  iterating h := by rw [hp] at h; cases h
  noErrInfo _ := hinfo
  failed he := absurd hnone he
  quiet h := by rw [hp] at h; cases h
  atRest h := by rw [hp] at h; cases h
  resAbove h := by rw [hp] at h; cases h
  idxRange := by simp [clear.idxOut]

/-- Settles O38: the dispatch step is the first of the `1 + count` core steps of a `SOLVE` under way. -/
theorem solveRunIgnoresInterleavedHostActions : Obligations.SolveRunIgnoresInterleavedHostActions := by
  intro L s acts hp clear hdone hnone hpos hval hd hfound ha hreset hcount
  have underway : SolveUnderway L s :=
    { inv := inv_of_dispatching hp clear hdone hnone ⟨hpos, hval⟩
      busy := by simp [hp]
      command := hd
      found := by
        intro w hw
        obtain ⟨k, hk, rfl⟩ := mem_knownWords.mp hw
        exact hfound k hk }
  exact underway.run acts ha hreset (by simp [coreStepsLeft, hp, hcount])

end Machine

end Sys2Proof
end

section
/-! PROOFS, `30_encoding.md`. The command words: decoding and encoding are inverse to each other, the opcode map and
the illegal words, the assembler's lines, `LDDICE`, and the step that runs the command in `CMD`. -/

namespace Sys2Proof

/-! ### Round trips (R90, R91) -/

/-- Settles O2, by the command's format. -/
theorem decodeEncodeRoundTrip : Obligations.DecodeEncodeRoundTrip := decodeWord_encode

/-- With the reserved bits zero, `OP` and the bits of `IMM16` are the whole word (R90). -/
theorem word_eq_imm16_op {c : Word} (hhigh : highReserved c = 0) (hlow : lowReserved c = 0) :
    c.toNat = (imm16Field c).toNat * 256 + (opField c).toNat := by
  rw [word_eq_fields, imm16_eq_fields, hhigh, hlow]
  simp only [BitVec.ofNat_eq_ofNat, BitVec.toNat_zero]
  ring

/-- The number of words fits in `LEN` (R93). -/
theorem words_lt (L : MnemonicLength) : L.words < 256 := by cases L <;> decide

/-- A `SOLVE` word as a number: `LEN` is the number of words (R90, R93). -/
theorem encode_solve_toNat (L : MnemonicLength) (n : Byte) :
    (encode (Instr.solve L n)).toNat = (n.toNat * 256 + L.words) * 256 + 1 := by
  rw [encode_solve, encodeS_toNat, BitVec.toNat_ofNat, Nat.mod_eq_of_lt (words_lt L)]
  omega

/-- Settles O3: the decoder finds the reserved bits zero and uses every other bit of the word. -/
theorem encodeDecodeRoundTrip : Obligations.EncodeDecodeRoundTrip := by
  intro c i h
  obtain ⟨hhigh, hlow, hcases⟩ := decode_legal_cases h
  apply BitVec.eq_of_toNat_eq
  rw [word_eq_imm16_op hhigh hlow]
  rcases hcases with ⟨hop, L, hL, rfl⟩ | ⟨hop, himm, rfl⟩ | ⟨hop, rfl⟩ | ⟨hop, himm, rfl⟩
  · rw [encode_solve_toNat, imm16_eq_fields, ofNat?_eq_some.mp hL, hop]
    rfl
  · rw [himm, hop]
    rfl
  · rw [encode, encodeI_toNat, hop]
    rfl
  · rw [himm, hop]
    rfl

/-- A word decodes to a command exactly when it is the command's word. -/
theorem decodeWord_eq_legal_iff {c : Word} {i : Instr} : decodeWord c = .legal i ↔ c = encode i := by
  constructor
  · intro h
    exact (encodeDecodeRoundTrip c i h).symm
  · rintro rfl
    exact decodeWord_encode i

/-- The decoder is total: what is no command is illegal, and nothing is both. -/
theorem illegal_iff_not_legal (c : Word) :
    (∃ why, decodeWord c = .illegal why) ↔ ¬∃ i, decodeWord c = .legal i := by
  cases decodeWord c <;> simp

/-! ### The opcode map (R92) -/

/-- A mask that is 0 exactly on one field takes the value of that field out of the word. -/
theorem mask_field_toNat {a b d : Nat} (x : BitVec a) (y : BitVec b) (z : BitVec d) :
    ((x ++ y ++ z) &&& (BitVec.allOnes a ++ 0#b ++ BitVec.allOnes d)).toNat + y.toNat * 2 ^ d
      = (x ++ y ++ z).toNat := by
  rw [BitVec.and_append, BitVec.and_append]
  simp only [BitVec.and_allOnes, BitVec.and_zero, append_toNat, BitVec.toNat_ofNat, Nat.zero_mod]
  ring

/-- The mask of a `SOLVE` row takes out `WCNT`. -/
theorem maskS_toNat (c : Word) : (c &&& 0xFF00FFFF).toNat + (wcntField c).toNat * 65536 = c.toNat := by
  have fields : highReserved c ++ wcntField c ++ c.extractLsb' 0 16 = c := by
    apply BitVec.eq_of_toNat_eq
    simp only [highReserved, wcntField, append_toNat, extract_toNat]
    omega
  have masked := mask_field_toNat (highReserved c) (wcntField c) (c.extractLsb' 0 16)
  rw [fields] at masked
  exact masked

/-- The mask of the `I2D` row takes out `IMM16`. -/
theorem maskI_toNat (c : Word) : (c &&& 0xFF0000FF).toNat + (imm16Field c).toNat * 256 = c.toNat := by
  have fields : highReserved c ++ imm16Field c ++ c.extractLsb' 0 8 = c := by
    apply BitVec.eq_of_toNat_eq
    simp only [highReserved, imm16Field, append_toNat, extract_toNat]
    omega
  have masked := mask_field_toNat (highReserved c) (imm16Field c) (c.extractLsb' 0 8)
  rw [fields] at masked
  exact masked

/-- A word that selects the row of a length is the word of that `SOLVE`. -/
theorem eq_encode_solve_of_masked {c : Word} (L : MnemonicLength)
    (h : c &&& 0xFF00FFFF = encodeS 0 (BitVec.ofNat 8 L.words)) : c = encode (Instr.solve L (wcntField c)) := by
  have word := maskS_toNat c
  rw [h, encodeS_toNat] at word
  apply BitVec.eq_of_toNat_eq
  rw [encode_solve, encodeS_toNat, ← word, BitVec.ofNat_eq_ofNat, BitVec.toNat_zero]
  ring

/-- A word that selects the `I2D` row is the word of an `I2D`. -/
theorem eq_encode_i2d_of_masked {c : Word} (h : c &&& 0xFF0000FF = 0x00000003) : c = encode (.i2d (imm16Field c)) := by
  have word := maskI_toNat c
  rw [h] at word
  apply BitVec.eq_of_toNat_eq
  rw [encode, encodeI_toNat, ← word, add_comm]
  rfl

/-- A word that selects a row decodes to a command of the row. -/
theorem legal_of_row {c : Word} {r : OpcodeRow} (hr : r ∈ opcodeMap) (h : c &&& r.mask = r.pattern) :
    ∃ i, decodeWord c = .legal i ∧ i.mnemonic = r.mnemonic := by
  simp only [decodeWord_eq_legal_iff]
  simp only [opcodeMap, List.mem_cons, List.not_mem_nil, or_false] at hr
  rcases hr with rfl | rfl | rfl | rfl | rfl | rfl | rfl | rfl
  · exact ⟨_, eq_encode_solve_of_masked .w12 h, rfl⟩
  · exact ⟨_, eq_encode_solve_of_masked .w15 h, rfl⟩
  · exact ⟨_, eq_encode_solve_of_masked .w18 h, rfl⟩
  · exact ⟨_, eq_encode_solve_of_masked .w21 h, rfl⟩
  · exact ⟨_, eq_encode_solve_of_masked .w24 h, rfl⟩
  · exact ⟨.d2i, BitVec.and_allOnes.symm.trans h, rfl⟩
  · exact ⟨_, eq_encode_i2d_of_masked h, rfl⟩
  · exact ⟨.clr, BitVec.and_allOnes.symm.trans h, rfl⟩

/-- A word that decodes to a command selects the row of its mnemonic. -/
theorem row_of_legal {c : Word} {i : Instr} (h : decodeWord c = .legal i) :
    ∃ r ∈ opcodeMap, r.mnemonic = i.mnemonic ∧ c &&& r.mask = r.pattern := by
  have row : Laws.TableRow.Statement i := by
    cases i with
    | solve12 n => exact Laws.TableRow.solve12 n
    | solve15 n => exact Laws.TableRow.solve15 n
    | solve18 n => exact Laws.TableRow.solve18 n
    | solve21 n => exact Laws.TableRow.solve21 n
    | solve24 n => exact Laws.TableRow.solve24 n
    | d2i => exact Laws.TableRow.d2i
    | i2d x => exact Laws.TableRow.i2d x
    | clr => exact Laws.TableRow.clr
  obtain ⟨r, hr, hm, selects⟩ := row
  rw [← decodeWord_eq_legal_iff.mp h] at selects
  exact ⟨r, hr, hm, eq_of_beq selects⟩

/-- A mnemonic names one row. -/
theorem row_eq_of_mnemonic_eq :
    ∀ r ∈ opcodeMap, ∀ r' ∈ opcodeMap, r.mnemonic = r'.mnemonic → r = r' := by
  decide

/-- Settles O4: a word selects a row exactly when it decodes to a command of the row's mnemonic, and the mnemonics of
the rows are distinct. -/
theorem decodingFollowsTheOpcodeMap : Obligations.DecodingFollowsTheOpcodeMap := by
  refine ⟨fun c r hr => ⟨legal_of_row hr, ?_⟩, fun c => ?_, ?_⟩
  · rintro ⟨i, hi, hm⟩
    obtain ⟨r', hr', hm', h'⟩ := row_of_legal hi
    obtain rfl := row_eq_of_mnemonic_eq r hr r' hr' (hm.symm.trans hm'.symm)
    exact h'
  · rw [illegal_iff_not_legal]
    constructor
    · rintro unselected ⟨i, hi⟩
      obtain ⟨r, hr, -, h⟩ := row_of_legal hi
      exact unselected r hr h
    · intro hillegal r hr h
      obtain ⟨i, hi, -⟩ := legal_of_row hr h
      exact hillegal ⟨i, hi⟩
  · have distinct : opcodeMap.Pairwise fun r r' => r.mnemonic ≠ r'.mnemonic := by decide
    refine distinct.imp_of_mem ?_
    rintro r r' hr hr' hne c ⟨h, h'⟩
    obtain ⟨i, hi, hm⟩ := legal_of_row hr h
    obtain ⟨i', hi', hm'⟩ := legal_of_row hr' h'
    cases hi.symm.trans hi'
    exact hne (hm.symm.trans hm')

/-! ### The words that are no command (R97) -/

/-- `LEN` names a length exactly when it is one of the five (R93). -/
theorem exists_ofNat?_iff {n : Nat} : (∃ L, MnemonicLength.ofNat? n = some L) ↔ n ∈ [12, 15, 18, 21, 24] := by
  simp only [ofNat?_eq_some]
  constructor
  · rintro ⟨L, rfl⟩
    cases L <;> decide
  · simp only [List.mem_cons, List.not_mem_nil, or_false]
    rintro (rfl | rfl | rfl | rfl | rfl)
    exacts [⟨.w12, rfl⟩, ⟨.w15, rfl⟩, ⟨.w18, rfl⟩, ⟨.w21, rfl⟩, ⟨.w24, rfl⟩]

/-- The words that are a command, by their fields (R91). -/
theorem legal_iff (c : Word) : (∃ i, decodeWord c = .legal i) ↔
    highReserved c = 0 ∧ lowReserved c = 0 ∧
      (((opField c).toNat = 1 ∧ (lenField c).toNat ∈ [12, 15, 18, 21, 24]) ∨
        (((opField c).toNat = 2 ∨ (opField c).toNat = 4) ∧ imm16Field c = 0) ∨ (opField c).toNat = 3) := by
  constructor
  · rintro ⟨i, h⟩
    obtain ⟨hhigh, hlow, ⟨hop, L, hL, -⟩ | ⟨hop, himm, -⟩ | ⟨hop, -⟩ | ⟨hop, himm, -⟩⟩ := decode_legal_cases h
    · exact ⟨hhigh, hlow, .inl ⟨congrArg BitVec.toNat hop, exists_ofNat?_iff.mp ⟨L, hL⟩⟩⟩
    · exact ⟨hhigh, hlow, .inr (.inl ⟨.inl (congrArg BitVec.toNat hop), himm⟩)⟩
    · exact ⟨hhigh, hlow, .inr (.inr (congrArg BitVec.toNat hop))⟩
    · exact ⟨hhigh, hlow, .inr (.inl ⟨.inr (congrArg BitVec.toNat hop), himm⟩)⟩
  · have op_eq {x : BitVec 4} : (opField c).toNat = x.toNat → opField c = x := BitVec.eq_of_toNat_eq
    rintro ⟨hhigh, hlow, ⟨hop, hlen⟩ | ⟨hop | hop, himm⟩ | hop⟩
    · obtain ⟨L, hL⟩ := exists_ofNat?_iff.mpr hlen
      exact ⟨Instr.solve L (wcntField c), by simp [decodeWord, decodeSolve, hhigh, hlow, op_eq (x := 1) hop, hL]⟩
    · exact ⟨.d2i, by simp [decodeWord, hhigh, hlow, op_eq (x := 2) hop, himm]⟩
    · exact ⟨.clr, by simp [decodeWord, hhigh, hlow, op_eq (x := 4) hop, himm]⟩
    · exact ⟨.i2d (imm16Field c), by simp [decodeWord, hhigh, hlow, op_eq (x := 3) hop]⟩

/-- Settles O5: the illegal words are the rest, so the conditions of R97 negate those of a command. -/
theorem illegalWordsExactly : Obligations.IllegalWordsExactly := by
  intro c
  rw [illegal_iff_not_legal, legal_iff, not_and_or, not_and_or]
  refine or_congr Iff.rfl (or_congr Iff.rfl ?_)
  change _ ↔ (opField c).toNat = 0 ∨ 5 ≤ (opField c).toNat ∨
    ((opField c).toNat = 1 ∧ (lenField c).toNat ∉ [12, 15, 18, 21, 24]) ∨
    (((opField c).toNat = 2 ∨ (opField c).toNat = 4) ∧ imm16Field c ≠ 0)
  generalize (opField c).toNat = op
  obtain rfl | rfl | rfl | rfl | rfl | hop : op = 0 ∨ op = 1 ∨ op = 2 ∨ op = 3 ∨ op = 4 ∨ 5 ≤ op := by omega
  case inl | inr.inl | inr.inr.inl | inr.inr.inr.inl | inr.inr.inr.inr.inl => simp
  case inr.inr.inr.inr.inr =>
    have unassigned : op ≠ 1 ∧ op ≠ 2 ∧ op ≠ 3 ∧ op ≠ 4 := by omega
    simp [hop, unassigned]

/-! ### The assembler's lines (R99, R100) -/

/-- The formula of a `SOLVE` line: no two of its fields overlap (R99). -/
theorem solveFormula_eq (n : Nat) {len : Nat} (h : len < 256) :
    (n <<< 16) ||| (len <<< 8) ||| 1 = (n * 256 + len) * 256 + 1 := by
  rw [Nat.or_assoc, shiftLeft_or_eq_add len 8 1 (by decide), shiftLeft_or_eq_add n 16 _ (by omega)]
  omega

/-- The formula of R99 for a length and a count that fits in `WCNT` is the word of the `SOLVE`. -/
theorem solveFormula_eq_encode (L : MnemonicLength) {n : Nat} (hn : n < 256) :
    (n <<< 16) ||| (L.words <<< 8) ||| 1 = (encode (Instr.solve L (BitVec.ofNat 8 n))).toNat := by
  rw [solveFormula_eq n (words_lt L), encode_solve_toNat, BitVec.toNat_ofNat, Nat.mod_eq_of_lt hn]

/-- The formula of R99 for an index that fits in `IMM16` is the word of the `I2D`. -/
theorem i2dFormula_eq_encode {x : Nat} (hx : x < 65536) :
    (x <<< 8) ||| 3 = (encode (.i2d (BitVec.ofNat 16 x))).toNat := by
  rw [shiftLeft_or_eq_add x 8 3 (by decide), encode, encodeI_toNat, BitVec.toNat_ofNat, Nat.mod_eq_of_lt hx]
  rfl

/-- Settles O6, line by line: a field's value fits, or the line is refused. -/
theorem assemblerWordsAreCommandWords : Obligations.AssemblerWordsAreCommandWords := by
  intro line
  cases line with
  | solve len n =>
    cases hL : MnemonicLength.ofNat? len with
    | none => simp [SourceLine.wf, SourceLine.command, hL]
    | some L =>
      obtain rfl := ofNat?_eq_some.mp hL
      by_cases hn : n < 256
      · simp [SourceLine.wf, SourceLine.command, SourceLine.word, hL, hn, solveFormula_eq_encode]
      · simp [SourceLine.wf, SourceLine.command, hn]
  | solveAll len =>
    cases hL : MnemonicLength.ofNat? len with
    | none => simp [SourceLine.wf, SourceLine.command, hL]
    | some L =>
      obtain rfl := ofNat?_eq_some.mp hL
      have hn : L.words - 1 < 256 := by have := words_lt L; omega
      simp [SourceLine.wf, SourceLine.command, SourceLine.word, hL, solveFormula_eq_encode L hn]
  | d2i => exact ⟨fun _ => ⟨.d2i, rfl, rfl⟩, nofun⟩
  | i2d x =>
    by_cases hx : x < 65536
    · simp [SourceLine.wf, SourceLine.command, SourceLine.word, hx, i2dFormula_eq_encode hx]
    · simp [SourceLine.wf, SourceLine.command, hx]
  | clr => exact ⟨fun _ => ⟨.clr, rfl, rfl⟩, nofun⟩

/-- Settles O1, word by word: a word written out is the command's word, or breaks one condition of R97. -/
theorem specWordsDecode : Obligations.SpecWordsDecode := by
  unfold Obligations.SpecWordsDecode
  decide

namespace Machine

/-! ### `LDDICE` (R31, R100) -/

theorem diceChars_packLanes {s : State} {c0 c1 c2 c3 c4 : Byte} (hlo : s.diceInLo = packLanes c0 c1 c2 c3)
    (hhi : s.diceInHi = c4.setWidth 32) : diceChars s = [c0, c1, c2, c3, c4] := by
  obtain ⟨h0, h1, h2, h3⟩ := lane_packLanes c0 c1 c2 c3
  simp only [diceChars, hlo, hhi, h0, h1, h2, h3, lane_setWidth]

/-- Settles O31: at rest each of the two writes stores its word, and the lanes of the words are the characters. -/
theorem loadDiceSetsTheCharacters : Obligations.LoadDiceSetsTheCharacters := by
  intro s c0 c1 c2 c3 c4 hp ha
  have low := (operandWritesStoreTheWord s _ _ _ hp ha).1 rfl
  have high := (operandWritesStoreTheWord { s with
    agenda := scriptWr 0x024 (c4.setWidth 32), response := some .ok, diceInLo := packLanes c0 c1 c2 c3 }
    _ _ [] hp rfl).2.1 rfl
  exact ⟨_, (runFor_next low).trans (runFor_next high), diceChars_packLanes rfl rfl, rfl⟩

/-! ### The step runs the command in `CMD` (R91, R124) -/

theorem coreStep_eq_exec {s : State} {i : Instr} (hd : decodeWord s.cmd = .legal i)
    (hp : s.phase = .dispatch ∨ (s.phase = .iter ∧ i.isSolve = true)) : coreStep s = exec i s := by
  rcases hp with hp | ⟨hp, hi⟩
  · exact coreStep_of_dispatch hp hd
  · simp only [coreStep, hp, iterationStep, hd, hi, if_true]

/-- Settles O7: the core's turn comes with an empty agenda or stands first in it. -/
theorem stepRunsTheCommandInCmd : Obligations.StepRunsTheCommandInCmd := by
  intro s i hd hp
  constructor
  · intro ha
    rw [step_nil ha, coreStep_eq_exec hd hp]
  · intro rest ha
    rw [step_core ha]
    exact coreStep_eq_exec (s := { s with agenda := rest }) hd hp

end Machine

end Sys2Proof
end

section
/-! PROOFS, `40_solve.md`. A `SOLVE`: its dispatch step, its iterations, the state its run ends in, and what follows
from that state alone. -/

namespace Sys2Proof.Machine

variable {L : MnemonicLength} {wcnt : Byte} {s t : State}

/-! ### The dispatch step (R121 to R123) -/

theorem exec_solve_of_dispatch (hp : s.phase = .dispatch) :
    exec (Instr.solve L wcnt) s = .next (solveDispatch L wcnt s) := by
  simp only [exec_solve, solveStep, hp]

theorem firstNotFound_eq_slot {k : Fin 23} (hk : k.val < L.words - 1) (hbad : 2048 ≤ s.w[k].toNat)
    (hbelow : ∀ j : Fin 23, j.val < k.val → s.w[j].toNat < 2048) :
    firstNotFound (knownWords L s) = some k.val := by
  have hlen : k.val < (knownWords L s).length := by rwa [knownWords_length]
  refine firstNotFound_some.mpr ⟨hlen, ?_, fun j hj => ?_⟩
  · rwa [knownWords_get]
  · rw [knownWords_get]
    exact hbelow ⟨j, hj.trans k.isLt⟩ hj

theorem firstNotFound_eq_none_of_slots (hfound : ∀ k : Fin 23, k.val < L.words - 1 → s.w[k].toNat < 2048) :
    firstNotFound (knownWords L s) = none := by
  refine firstNotFound_none.mpr fun w hw => ?_
  obtain ⟨k, hk, rfl⟩ := mem_knownWords.mp hw
  exact hfound k hk

/-- Settles O32: the length check comes first. -/
theorem solveReportsLengthMismatch : Obligations.SolveReportsLengthMismatch := by
  intro L wcnt s hp hn
  rw [exec_solve_of_dispatch hp]
  rcases solveDispatch_cases L wcnt s with ⟨-, e⟩ | ⟨hn', -⟩ | ⟨hn', -⟩
  · rw [e]; rfl
  · exact absurd hn' hn
  · exact absurd hn' hn

/-- Settles O33: the slot is the first one that the word check does not find. -/
theorem solveReportsTheLowestNotFoundSlot : Obligations.SolveReportsTheLowestNotFoundSlot := by
  intro L wcnt s k hp hn hk hbad hbelow
  have hfirst := firstNotFound_eq_slot hk hbad hbelow
  rw [exec_solve_of_dispatch hp]
  rcases solveDispatch_cases L wcnt s with ⟨hn', -⟩ | ⟨-, j, hj, e⟩ | ⟨-, hnone, -⟩
  · exact absurd hn hn'
  · obtain rfl := Option.some.inj (hj.symm.trans hfirst)
    rw [e]; rfl
  · cases hnone.symm.trans hfirst

/-- Settles O34: both checks pass. -/
theorem solveStartsIterating : Obligations.SolveStartsIterating := by
  intro L wcnt s hp hn hfound
  rw [exec_solve_of_dispatch hp]
  rcases solveDispatch_cases L wcnt s with ⟨hn', -⟩ | ⟨-, j, hj, -⟩ | ⟨-, -, e⟩
  · exact absurd hn hn'
  · cases hj.symm.trans (firstNotFound_eq_none_of_slots hfound)
  · rw [e]

/-! ### The iterations (R124, R125) -/

theorem exec_solve_of_iter (hp : s.phase = .iter) (hn : s.nonce.toNat < L.count) :
    exec (Instr.solve L wcnt) s = .next (iterate L s) := by
  simp only [exec_solve, solveStep, hp, solveIterate, hn, if_true]

/-- Settles O35: the iteration is not the last, and the candidate's definition is R124's formula. -/
theorem solveIterationStoresTheCandidate : Obligations.SolveIterationStoresTheCandidate := by
  intro L wcnt s hp hn
  rw [exec_solve_of_iter hp (by omega), iterate_of_ne L s (by omega)]
  rfl

/-- Settles O36: the iteration is the last. -/
theorem solveLastIterationCompletes : Obligations.SolveLastIterationCompletes := by
  intro L wcnt s hp hn
  rw [exec_solve_of_iter hp (by omega), iterate_of_eq L s hn]

/-! ### The checksum and the candidate as numbers (R172 to R174) -/

/-- `check_shift` and `checksum_bits` make up the digest byte (R9). -/
theorem checkShift_add_checksumBits (L : MnemonicLength) : L.checkShift + L.checksumBits = 8 := by
  cases L <;> rfl

theorem digestByte_shiftRight_lt (L : MnemonicLength) (h0 : Byte) :
    h0.toNat >>> L.checkShift < 2 ^ L.checksumBits := by
  rw [Nat.shiftRight_eq_div_pow]
  apply Nat.div_lt_of_lt_mul
  rw [← Nat.pow_add, checkShift_add_checksumBits]
  exact h0.isLt

/-- The mask takes out only what the shift drops (R172). -/
theorem checksumOf_eq_shiftRight (L : MnemonicLength) (h0 : Byte) :
    checksumOf L h0 = h0.toNat >>> L.checkShift := by
  rw [checksumOf, MnemonicLength.checkMask, Nat.shiftRight_and_distrib, Nat.shiftLeft_shiftRight, Nat.one_shiftLeft,
    Nat.and_two_pow_sub_one_eq_mod, Nat.mod_eq_of_lt (digestByte_shiftRight_lt L h0)]

/-- The checksum fills the bits below the nonce (R173). -/
theorem candidate_shiftRight (L : MnemonicLength) (ws : List Word) (n : Nat) :
    candidate L ws n >>> L.checksumBits = n := by
  rw [candidate, assemble, checksumOf_eq_shiftRight, Nat.shiftRight_or_distrib, Nat.shiftLeft_shiftRight,
    Nat.shiftRight_eq_zero _ _ (digestByte_shiftRight_lt L _), Nat.or_zero]

/-- A candidate is a WordIndex (R174). -/
theorem candidate_lt {n : Nat} (ws : List Word) (hn : n < L.count) : candidate L ws n < 2048 := by
  rw [← count_mul_checksum L, ← Nat.div_lt_iff_lt_mul (Nat.two_pow_pos _), ← Nat.shiftRight_eq_div_pow,
    candidate_shiftRight]
  exact hn

theorem solveResults_toNat {n : Fin 128} (ws : List Word) (hn : n.val < L.count) :
    (solveResults L ws)[n].toNat = candidate L ws n.val := by
  simp [solveResults, hn, Nat.mod_eq_of_lt (candidate_lt ws hn)]

/-- The results with the candidate written out (R126). -/
theorem solveResults_eq (L : MnemonicLength) (ws : List Word) :
    solveResults L ws = Vector.ofFn fun n : Fin 128 =>
      if n.val < L.count then
        BitVec.ofNat 11 ((n.val <<< L.checksumBits) ||| ((sha256 (entropyBlock L ws n.val))[0].toNat >>> L.checkShift))
      else 0 := by
  simp only [solveResults, candidate, assemble, checksumOf_eq_shiftRight]

/-! ### A `SOLVE` whose core steps follow each other (R126, R281) -/

/-- The core's turn answers no transaction, draws nothing and leaves the order of the actions (R70). -/
theorem coreStep_port (h : coreStep s = .next t) :
    t.agenda = s.agenda ∧ t.response = s.response ∧ t.draws = s.draws := by
  rcases coreStep_cases h with ⟨-, rfl⟩ | ⟨-, L, n, -, -, rfl⟩ | ⟨-, hd⟩
  · exact ⟨rfl, rfl, rfl⟩
  · obtain ⟨-, -, -, -, -, -, -, -, -, -, port⟩ := iterate_frame L s
    exact port
  · rcases hd with ⟨why, -, rfl⟩ | ⟨L, n, -, rfl⟩ | ⟨-, d2i⟩ | ⟨x, -, i2d⟩ | ⟨-, rfl⟩
    · exact ⟨rfl, rfl, rfl⟩
    · rcases solveDispatch_cases L n s with ⟨-, e⟩ | ⟨-, k, -, e⟩ | ⟨-, -, e⟩ <;> rw [e] <;> exact ⟨rfl, rfl, rfl⟩
    · rcases d2i with ⟨x, -, rfl⟩ | ⟨pos, c, -, rfl⟩ <;> exact ⟨rfl, rfl, rfl⟩
    · rcases i2d with ⟨-, rfl⟩ | ⟨-, lo, hi, rfl⟩ <;> exact ⟨rfl, rfl, rfl⟩
    · exact ⟨rfl, rfl, rfl⟩

/-- A core step before the last one leads to the same big-step form. -/
theorem SolveUnderway.coreStep_solveFinal (h : SolveUnderway L s) (hleft : coreStepsLeft L s ≠ 1) :
    ∃ t, coreStep s = .next t ∧ SolveUnderway L t ∧ solveFinal L t = solveFinal L s ∧
      coreStepsLeft L t + 1 = coreStepsLeft L s := by
  obtain ⟨t, hstep, ht, -, same, hcount⟩ := h.coreStep_next hleft
  obtain ⟨hagenda, hresponse, hdraws⟩ := coreStep_port hstep
  refine ⟨t, hstep, ht, (solveFinal_congr L same t.agenda t.response t.draws).trans ?_, hcount⟩
  rw [hagenda, hresponse, hdraws]
  rfl

/-- A `SOLVE` under way that the core runs alone: by induction on the core steps taken (R281). -/
theorem SolveUnderway.runAlone (k : Nat) (h : SolveUnderway L s) (ha : s.agenda = []) (hk : k < coreStepsLeft L s) :
    ∃ t, runFor k s = .next t ∧ SolveUnderway L t ∧ solveFinal L t = solveFinal L s ∧
      coreStepsLeft L t + k = coreStepsLeft L s := by
  induction k generalizing s with
  | zero => exact ⟨s, rfl, h, rfl, rfl⟩
  | succ k ih =>
    obtain ⟨t, hstep, ht, hfinal, hcount⟩ := h.coreStep_solveFinal (by omega)
    have hagenda : t.agenda = [] := (congrArg State.agenda hfinal).trans ha
    obtain ⟨u, hrun, hu, hfinal', hcount'⟩ := ih ht hagenda (by omega)
    exact ⟨u, (runFor_next ((step_nil ha).trans hstep)).trans hrun, hu, hfinal'.trans hfinal, by omega⟩

/-- The last of its core steps ends in the big-step form (R126). -/
theorem SolveUnderway.runAlone_end {k : Nat} (h : SolveUnderway L s) (ha : s.agenda = [])
    (hk : coreStepsLeft L s = k + 1) : runFor (k + 1) s = .next (solveFinal L s) := by
  obtain ⟨t, hrun, ht, hfinal, hcount⟩ := h.runAlone k ha (by omega)
  have hagenda : t.agenda = [] := (congrArg State.agenda hfinal).trans ha
  have hlast : step t = .next (solveFinal L s) := by
    rw [step_nil hagenda, ht.coreStep_last (by omega), hfinal]
  exact (runFor_add hrun).trans (runFor_next hlast)

/-! ### The launch (R65, R283) -/

/-- The state after the `CMD` write of a launch: the core runs alone from here (R65). -/
def launched (L : MnemonicLength) (s : State) : State :=
  (State.accept (solveWord L) { s with agenda := [] }).answer .ok

theorem SolveLaunch.step_eq (h : SolveLaunch L s) : step s = .next (launched L s) :=
  step_write_accepted h.order h.idle (regAt_addr .cmd) rfl

theorem SolveLaunch.underway (h : SolveLaunch L s) : SolveUnderway L (launched L s) where
  inv := (inv_accept _ _).answer .ok
  busy := nofun
  command := decodeWord_encode _
  found := firstNotFound_none.mp (firstNotFound_eq_none_of_slots h.found)

/-- A launch ends in the big-step form of the state that the `CMD` write leaves (R126). -/
theorem SolveLaunch.run (h : SolveLaunch L s) : runFor (2 + L.count) s = .next (solveFinal L (launched L s)) := by
  rw [show 2 + L.count = L.count + 1 + 1 by omega, runFor_next h.step_eq]
  exact h.underway.runAlone_end rfl rfl

/-- Before that every step of a launch leaves the core busy (R281). -/
theorem SolveLaunch.busy_before (h : SolveLaunch L s) {k : Nat} (hk : k < 1 + L.count) :
    ∃ t, runFor (k + 1) s = .next t ∧ t.phase ≠ .idle := by
  have hleft : coreStepsLeft L (launched L s) = L.count + 1 := rfl
  obtain ⟨t, hrun, ht, -⟩ := h.underway.runAlone k rfl (by omega)
  exact ⟨t, (runFor_next h.step_eq).trans hrun, ht.busy⟩

/-- Settles O37: the big-step form, with the candidates written out. -/
theorem solveRunReachesTheBigStepState : Obligations.SolveRunReachesTheBigStepState := by
  intro L s h
  constructor
  · intro k hk hbefore
    obtain ⟨j, rfl⟩ := Nat.exists_eq_add_of_le' hk
    exact h.busy_before (by omega)
  · rw [h.run, ← solveResults_eq]
    rfl

/-! ### What the big-step form says (R127, R128, R130) -/

/-- Settles O39: the nonces in the high bits of the candidates ascend, so the candidates do. -/
theorem solveCandidatesAscend : Obligations.SolveCandidatesAscend := by
  intro L s h
  have high : ∀ n : Fin 128, n.val < L.count →
      (solveResults L (knownWords L s))[n].toNat >>> L.checksumBits = n.val := by
    intro n hn
    rw [solveResults_toNat _ hn, candidate_shiftRight]
  refine ⟨_, h.run, byte_toNat_of_le (count_le L), high, fun m n hmn hn => ?_⟩
  apply Nat.lt_of_div_lt_div (c := 2 ^ L.checksumBits)
  rw [← Nat.shiftRight_eq_div_pow, ← Nat.shiftRight_eq_div_pow]
  exact (high m (hmn.trans hn)).trans_lt (hmn.trans_eq (high n hn).symm)

theorem knownWords_eq_of_slots (hsame : ∀ k : Fin 23, k.val < L.words - 1 → s.w[k] = t.w[k]) :
    knownWords L s = knownWords L t := by
  apply List.ext_getElem
  · rw [knownWords_length, knownWords_length]
  · intro k hs ht
    have hk : k < L.known := by rwa [knownWords_length] at hs
    rw [knownWords_get, knownWords_get]
    exact hsame ⟨k, hk.trans_le (known_le L)⟩ hk

/-- Settles O40: in the big-step form of a launch every register but the operands is 0, or fixed by `L`, or a
candidate of the known words. -/
theorem solveDependsOnItsSlotsOnly : Obligations.SolveDependsOnItsSlotsOnly := by
  intro L s s' h h' hsame
  refine ⟨_, _, h.run, h'.run, fun r hw hlo hhi => ?_⟩
  have results : solveResults L (knownWords L s) = solveResults L (knownWords L s') := by
    rw [knownWords_eq_of_slots hsame]
  cases r with
  | w k => exact absurd rfl (hw k)
  | diceInLo => exact absurd rfl hlo
  | diceInHi => exact absurd rfl hhi
  | res n => exact congrArg (fun res : Vector WordIndex 128 => res[n].setWidth 32) results
  | _ => rfl

end Sys2Proof.Machine
end

section
/-! PROOFS, `41_packer.md`. The accumulator computes `Pack`; the entropy block as one number: its length, its last byte,
and its place in the whole phrase. -/

namespace Sys2Proof

/-- The table of R152. -/
theorem MnemonicLength.streamWidth_eq (L : MnemonicLength) : 11 * (L.words - 1) + L.nonceBits = L.entropyBits := by
  cases L <;> rfl

/-- The nonce is narrower than a byte (R156). -/
theorem MnemonicLength.nonceBits_le (L : MnemonicLength) : L.nonceBits ≤ 7 := by
  cases L <;> decide

/-- A block has a last byte (R156). -/
theorem MnemonicLength.entropyBytes_pos (L : MnemonicLength) : 0 < L.entropyBytes := by
  cases L <;> decide

namespace Machine

variable {L : MnemonicLength} {ws : List Word} {n : Nat}

/-! ### The stream without its last field (R150) -/

theorem streamNumber_snoc_div (F : List BitField) (f : BitField) (h : f.value < 2 ^ f.width) :
    streamNumber (F ++ [f]) / 2 ^ f.width = streamNumber F := by
  rw [streamNumber_snoc F f h, Nat.mul_comm, Nat.mul_add_div (Nat.two_pow_pos _), Nat.div_eq_of_lt h, Nat.add_zero]

theorem streamNumber_snoc_mod (F : List BitField) (f : BitField) (h : f.value < 2 ^ f.width) :
    streamNumber (F ++ [f]) % 2 ^ f.width = f.value := by
  rw [streamNumber_snoc F f h, Nat.mul_add_mod_self_right, Nat.mod_eq_of_lt h]

/-! ### The accumulator (R151) -/

/-- R151, between two fields: the accumulator holds the bits of the stream of `F` that do not fill a byte, and has put
out the bytes above them. -/
structure HoldsStream (F : List BitField) (a : Accumulator) : Prop where
  nbits : a.nbits = totalWidth F % 8
  acc : a.acc = streamNumber F % 2 ^ a.nbits
  ent : a.ent = bigEndianBytes (totalWidth F / 8) (streamNumber F / 2 ^ a.nbits)

/-- One field more: `flushBytes_spec` at the stream that the field is shifted into. -/
theorem HoldsStream.accumulate {F : List BitField} {a : Accumulator} (h : HoldsStream F a) {f : BitField}
    (hf : f.value < 2 ^ f.width) : HoldsStream (F ++ [f]) (accumulate a f) := by
  obtain ⟨hnbits, hacc, hent⟩ := h
  have hlen : a.ent.length = totalWidth F / 8 := by rw [hent, bigEndianBytes_length]
  have high : streamNumber F / 2 ^ a.nbits = streamNumber (F ++ [f]) / 2 ^ (a.nbits + f.width) := by
    rw [Nat.add_comm, Nat.pow_add, ← Nat.div_div_eq_div_mul, streamNumber_snoc_div F f hf]
  have low : (a.acc <<< f.width) ||| f.value = streamNumber (F ++ [f]) % 2 ^ (a.nbits + f.width) := by
    rw [Nat.add_comm a.nbits, Nat.pow_add, Nat.mod_mul, streamNumber_snoc_div F f hf, streamNumber_snoc_mod F f hf,
      ← hacc, shiftLeft_or_eq_add _ _ _ hf, Nat.mul_comm, Nat.add_comm]
  obtain ⟨hn, ha, hl, he⟩ := flushBytes_spec (a.nbits + f.width)
    { a with acc := (a.acc <<< f.width) ||| f.value, nbits := a.nbits + f.width } (streamNumber (F ++ [f]))
    (by dsimp only; omega) (by rw [hlen, ← high]; exact hent) low
  have hwidth := totalWidth_snoc F f
  have hbytes : a.ent.length + (a.nbits + f.width) / 8 = totalWidth (F ++ [f]) / 8 := by omega
  exact ⟨hn.trans (by dsimp only; omega), ha, he.trans (by rw [hl, hbytes]; rfl)⟩

/-- The accumulator after all fields, by induction on the fields as R151 says. -/
theorem packByAccumulator_holdsStream (F : List BitField) (h : ∀ f ∈ F, f.value < 2 ^ f.width) :
    HoldsStream F (packByAccumulator F) := by
  induction F using List.reverseRecOn with
  | nil => exact ⟨rfl, rfl, rfl⟩
  | append_singleton F f ih =>
    have hF : HoldsStream F (packByAccumulator F) := ih fun g hg => h g (List.mem_append_left _ hg)
    rw [packByAccumulator, List.foldl_append]
    exact hF.accumulate (h f (by simp))

/-- Settles O44: what the accumulator holds after all fields, and for whole bytes that it holds nothing. -/
theorem accumulatorComputesPack : Obligations.AccumulatorComputesPack := by
  intro F hF
  obtain ⟨hnbits, hacc, hent⟩ := packByAccumulator_holdsStream F fun f hf => (hF f hf).2
  refine ⟨by omega, hacc ▸ Nat.mod_lt _ (Nat.two_pow_pos _), fun haligned => ?_⟩
  have hempty : (packByAccumulator F).nbits = 0 := hnbits.trans haligned
  refine ⟨?_, hempty⟩
  rw [hent, hempty, Nat.pow_zero, Nat.div_one, pack]

/-! ### The width of the stream (R152, R153) -/

theorem totalWidth_blockFields (L : MnemonicLength) (ws : List Word) (n : Nat) :
    totalWidth (blockFields L ws n) = 11 * ws.length + L.nonceBits := by
  rw [blockFields, totalWidth_snoc, totalWidth_words]

theorem totalWidth_blockFields_eq_entropyBits (n : Nat) (h : ws.length = L.words - 1) :
    totalWidth (blockFields L ws n) = L.entropyBits := by
  rw [totalWidth_blockFields, h, L.streamWidth_eq]

/-- The block is the stream as `entropy_bytes` bytes (R153). -/
theorem entropyBlock_eq_bigEndianBytes (n : Nat) (h : ws.length = L.words - 1) :
    entropyBlock L ws n = bigEndianBytes L.entropyBytes (streamNumber (blockFields L ws n)) := by
  rw [entropyBlock, pack, totalWidth_blockFields_eq_entropyBits n h, MnemonicLength.entropyBytes]

/-- Settles O45: the table of R152, and the width of the fields. -/
theorem entropyBlockHasItsLength : Obligations.EntropyBlockHasItsLength := by
  intro L ws n h
  refine ⟨L.streamWidth_eq, ?_, totalWidth_blockFields_eq_entropyBits n h, ?_⟩
  · rw [L.entropyBits_eq]
    omega
  · rw [entropyBlock_eq_bigEndianBytes n h, bigEndianBytes_length]

/-! ### The stream as a number (R150, R154) -/

/-- The indices of the known words, as the packer takes them from their slots (R124, R154). -/
def wordIndices (ws : List Word) : List Nat := ws.map fun w => (w.extractLsb' 0 11).toNat

theorem wordIndices_eq_toNat (h : ∀ w ∈ ws, w.toNat < 2048) : wordIndices ws = ws.map BitVec.toNat :=
  List.map_congr_left fun w hw => by rw [extract_toNat, Nat.pow_zero, Nat.div_one]; exact Nat.mod_eq_of_lt (h w hw)

theorem phraseNumber_snoc (idx : List Nat) {i : Nat} (h : i < 2 ^ 11) :
    phraseNumber (idx ++ [i]) = phraseNumber idx * 2 ^ 11 + i := by
  rw [phraseNumber, List.map_append]
  exact streamNumber_snoc _ _ h

/-- The known words of a block are numbered as a phrase is (R150, R175). -/
theorem blockFields_eq_wordIndices (L : MnemonicLength) (ws : List Word) (n : Nat) :
    blockFields L ws n = (wordIndices ws).map (fun i => ⟨i, Config.wordBits⟩) ++ [⟨n, L.nonceBits⟩] := by
  rw [wordIndices, List.map_map]
  rfl

/-- The stream of an iteration: the nonce below the number of the known words. -/
theorem streamNumber_blockFields (ws : List Word) (hn : n < L.count) :
    streamNumber (blockFields L ws n) = phraseNumber (wordIndices ws) * 2 ^ L.nonceBits + n := by
  rw [blockFields_eq_wordIndices]
  exact streamNumber_snoc _ _ hn

/-- The stream without its nonce. -/
theorem streamNumber_blockFields_div (ws : List Word) (hn : n < L.count) :
    streamNumber (blockFields L ws n) / 2 ^ L.nonceBits = phraseNumber (wordIndices ws) := by
  rw [blockFields_eq_wordIndices]
  exact streamNumber_snoc_div _ _ hn

/-! ### The last byte of the block (R156) -/

/-- The nonce reaches no byte but the last. -/
theorem entropyBlock_eq_snoc (h : ws.length = L.words - 1) (hn : n < L.count) :
    entropyBlock L ws n =
      bigEndianBytes (L.entropyBytes - 1) (phraseNumber (wordIndices ws) / 2 ^ (8 - L.nonceBits)) ++
        [BitVec.ofNat 8 (phraseNumber (wordIndices ws) * 2 ^ L.nonceBits + n)] := by
  have hbytes := L.entropyBytes_pos
  have hbits := L.nonceBits_le
  have hbyte : 256 = 2 ^ L.nonceBits * 2 ^ (8 - L.nonceBits) := by
    rw [← Nat.pow_add, Nat.add_sub_cancel' (by omega)]
  rw [entropyBlock_eq_bigEndianBytes n h, ← Nat.sub_add_cancel hbytes, bigEndianBytes_succ, Nat.add_sub_cancel,
    hbyte, ← Nat.div_div_eq_div_mul, streamNumber_blockFields_div ws hn, streamNumber_blockFields ws hn]

/-- The low bits of the stream's words are those of the last word. -/
theorem phraseNumber_wordIndices_mod (ws : List Word) (w : Word) {k : Nat} (hk : k ≤ 11) :
    phraseNumber (wordIndices (ws ++ [w])) % 2 ^ k = w.toNat % 2 ^ k := by
  have hdvd : 2 ^ k ∣ 2 ^ 11 := Nat.pow_dvd_pow 2 hk
  rw [wordIndices, List.map_append, List.map_singleton, phraseNumber_snoc _ (w.extractLsb' 0 11).isLt, extract_toNat,
    Nat.pow_zero, Nat.div_one, ← Nat.mod_mod_of_dvd _ hdvd, Nat.mul_add_mod_self_right, Nat.mod_mod,
    Nat.mod_mod_of_dvd _ hdvd]

/-- Settles O46: the block split before its last byte, which holds only the lowest bits of the stream. -/
theorem nonceChangesOnlyTheLastByte : Obligations.NonceChangesOnlyTheLastByte := by
  intro L ws w n hlen hn
  have h : (ws ++ [w]).length = L.words - 1 := by rwa [List.length_append]
  have hbits := L.nonceBits_le
  constructor
  · rw [entropyBlock_eq_snoc h hn, entropyBlock_eq_snoc h (Nat.two_pow_pos _),
      List.take_left' (bigEndianBytes_length _ _), List.take_left' (bigEndianBytes_length _ _)]
  · rw [entropyBlock_eq_snoc h hn, List.getLast?_concat, shiftLeft_or_eq_add _ _ _ hn,
      ← phraseNumber_wordIndices_mod ws w (by omega), ← Nat.mul_mod_mul_right, ← Nat.pow_add,
      Nat.sub_add_cancel (by omega)]
    congr 1
    apply BitVec.eq_of_toNat_eq
    simp only [BitVec.toNat_ofNat, Nat.mod_add_mod]

/-! ### The whole phrase (R155, R175) -/

/-- Settles O47: the final word stands below the known ones, its high bits where the nonce stands in the block. -/
theorem phraseEntropyIsTheEntropyBlock : Obligations.PhraseEntropyIsTheEntropyBlock := by
  intro L ws f hlen hws hf
  have hwidth : 2 ^ 11 = 2 ^ L.nonceBits * 2 ^ L.checksumBits := (count_mul_checksum L).symm
  have hnonce : f >>> L.checksumBits < L.count := by
    rw [Nat.shiftRight_eq_div_pow]
    exact Nat.div_lt_of_lt_mul (by rwa [Nat.mul_comm, count_mul_checksum])
  have hphrase := phraseNumber_snoc (ws.map BitVec.toNat) hf
  rw [hwidth, ← Nat.mul_assoc] at hphrase
  constructor
  · rw [phraseEntropy, entropyBlock_eq_bigEndianBytes _ hlen, streamNumber_blockFields ws hnonce,
      wordIndices_eq_toNat hws, hphrase, Nat.shiftRight_eq_div_pow, Nat.shiftRight_eq_div_pow, Nat.mul_comm,
      Nat.mul_add_div (Nat.two_pow_pos _)]
  · rw [Nat.and_two_pow_sub_one_eq_mod, hphrase, Nat.mul_add_mod_self_right]

end Machine

end Sys2Proof
end

section
/-! PROOFS, `42_checksum.md`. The checksum and the candidate as numbers, and the phrases that pass the validation: those
whose final word is the candidate of the nonce in its high bits. -/

namespace Sys2Proof.Machine

variable {L : MnemonicLength} {ws : List Word} {s : State} {n f : Nat}

/-! ### The checksum (R172) -/

theorem checksumOf_lt (L : MnemonicLength) (h0 : Byte) : checksumOf L h0 < 2 ^ L.checksumBits := by
  rw [checksumOf_eq_shiftRight]
  exact digestByte_shiftRight_lt L h0

/-- Settles O48: the mask is redundant with the shift, and what the shift keeps of a byte is `checksum_bits` wide. -/
theorem checksumIsTheTopBits : Obligations.ChecksumIsTheTopBits :=
  fun L h0 => ⟨rfl, checksumOf_eq_shiftRight L h0, checksumOf_lt L h0⟩

/-! ### The candidate (R173, R174) -/

/-- Settles O49: an OR without overlap is a sum, and the nonces fill the bits that the checksum leaves. -/
theorem candidateIsAWordIndex : Obligations.CandidateIsAWordIndex := by
  intro L n cks hn hcks
  have hsum : assemble L n cks = n * 2 ^ L.checksumBits + cks := shiftLeft_or_eq_add n L.checksumBits cks hcks
  refine ⟨rfl, hsum, Nat.le_of_lt_succ ?_⟩
  calc assemble L n cks
      < (n + 1) * 2 ^ L.checksumBits := by rw [hsum, Nat.succ_mul]; exact Nat.add_lt_add_left hcks _
    _ ≤ L.count * 2 ^ L.checksumBits := Nat.mul_le_mul_right _ hn
    _ = 2048 := count_mul_checksum L

theorem candidate_eq_add (L : MnemonicLength) (ws : List Word) (n : Nat) :
    candidate L ws n =
      n * 2 ^ L.checksumBits + (sha256 (entropyBlock L ws n))[0].toNat >>> (8 - L.checksumBits) := by
  rw [candidate, assemble, shiftLeft_or_eq_add _ _ _ (checksumOf_lt L _), checksumOf_eq_shiftRight]
  rfl

/-- The high bits of a WordIndex are a nonce (R173). -/
theorem wordIndex_shiftRight_lt_count (L : MnemonicLength) (hf : f < 2048) : f >>> L.checksumBits < L.count := by
  rw [Nat.shiftRight_eq_div_pow]
  exact Nat.div_lt_of_lt_mul (by rwa [Nat.mul_comm, count_mul_checksum])

/-! ### The phrases that pass the validation (R175 to R177) -/

/-- The phrase's entropy is the block of the nonce in the high bits of its final word (R155), and the checksum it embeds
is the low bits: it passes when those are the checksum of that block. -/
theorem bip39Valid_iff_eq_candidate (hlen : ws.length = L.words - 1) (hws : ∀ w ∈ ws, w.toNat < 2048)
    (hf : f < 2048) :
    Bip39Valid L (ws.map BitVec.toNat ++ [f]) ↔ f = candidate L ws (f >>> L.checksumBits) := by
  obtain ⟨hentropy, hembedded⟩ := phraseEntropyIsTheEntropyBlock L ws f hlen hws hf
  have hsplit : f = (f >>> L.checksumBits) * 2 ^ L.checksumBits + f % 2 ^ L.checksumBits := by
    rw [Nat.shiftRight_eq_div_pow, Nat.div_add_mod']
  rw [Bip39Valid, hentropy, hembedded, candidate_eq_add]
  omega

theorem SolveLaunch.knownWords_found (h : SolveLaunch L s) : ∀ w ∈ knownWords L s, w.toNat < 2048 :=
  h.underway.found

/-- Settles O41: the candidate of a nonce has that nonce in its high bits, so it is the final word that passes. -/
theorem solveIsSound : Obligations.SolveIsSound := by
  intro L s h
  refine ⟨_, h.run, fun n hn => ?_⟩
  have hcount : n.val < L.count := by rwa [← byte_toNat_of_le (count_le L)]
  have hres : (solveFinal L (launched L s)).res[n].toNat = candidate L (knownWords L s) n.val :=
    solveResults_toNat _ hcount
  rw [hres, bip39Valid_iff_eq_candidate (knownWords_length L s) h.knownWords_found (candidate_lt _ hcount),
    candidate_shiftRight]

/-- Settles O42: the final word that passes is the result at the nonce in its high bits. -/
theorem solveIsExhaustive : Obligations.SolveIsExhaustive := by
  intro L s h
  refine ⟨_, h.run, fun f hf => ?_⟩
  have hcount := wordIndex_shiftRight_lt_count L hf
  have hindex : f >>> L.checksumBits < 128 := hcount.trans_le (count_le L)
  have hres : ((solveFinal L (launched L s)).res.toList.getD (f >>> L.checksumBits) 0).toNat =
      candidate L (knownWords L s) (f >>> L.checksumBits) := by
    rw [List.getD_eq_getElem _ _ (by rwa [Vector.length_toList]), Vector.getElem_toList]
    exact solveResults_toNat (n := ⟨f >>> L.checksumBits, hindex⟩) _ hcount
  rw [hres]
  exact bip39Valid_iff_eq_candidate (knownWords_length L s) h.knownWords_found hf

end Sys2Proof.Machine
end

section
/-! PROOFS, `43_dice_codec.md`. The codec as two maps between dice strings and indices that are inverse to each other,
the two commands by these maps, and the round trips over two accepted commands. -/

namespace Sys2Proof.Machine

variable {s t : State}

/-! ### Dice strings and indices (R190 to R194) -/

/-- The base-6 number of a dice string, first character most significant (R192). -/
def diceIndex (cs : List Byte) : Nat := cs.foldl (fun a c => a * 6 + digitValue c) 0

theorem scanDice_eq_diceIndex {cs : List Byte} (h : ∀ c ∈ cs, isDiceChar c = true) :
    scanDice 0 0 cs = .index (diceIndex cs) := scanDice_valid cs 0 0 h

/-- A character after a string is its least significant digit. -/
theorem diceIndex_snoc (cs : List Byte) (c : Byte) : diceIndex (cs ++ [c]) = diceIndex cs * 6 + digitValue c := by
  simp [diceIndex]

/-- The loop of R194 makes the low `k` base-6 digits of `r`, before the characters already made. -/
theorem diceIndex_diceLoop (k r : Nat) (out : List Byte) :
    diceIndex (diceLoop k r out) = out.foldl (fun a c => a * 6 + digitValue c) (r % 6 ^ k) := by
  induction k generalizing r out with
  | zero => simp [diceLoop, diceIndex, Nat.mod_one]
  | succ k ih =>
    have hdigit : digitValue (digitChar (r % 6)) = r % 6 := digitValue_digitChar _ (Nat.mod_lt _ (by omega))
    have hmod : r / 6 % 6 ^ k * 6 + r % 6 = r % 6 ^ (k + 1) := by
      rw [pow_succ', Nat.mod_mul]
      ring
    rw [diceLoop, ih, List.foldl_cons, Config.diceRadix, hdigit, hmod]

/-- The loop of R194 gives back a string of valid characters from its number, last character first. -/
theorem diceLoop_diceIndex (cs out : List Byte) (h : ∀ c ∈ cs, isDiceChar c = true) :
    diceLoop cs.length (diceIndex cs) out = cs ++ out := by
  induction cs using List.reverseRecOn generalizing out with
  | nil => rfl
  | append_singleton cs c ih =>
    have hc : isDiceChar c = true := h c (by simp)
    have hlt := digitValue_lt hc
    have hdiv : (diceIndex cs * 6 + digitValue c) / 6 = diceIndex cs := by omega
    have hmod : (diceIndex cs * 6 + digitValue c) % 6 = digitValue c := by omega
    rw [List.length_append, List.length_singleton, diceLoop, diceIndex_snoc, Config.diceRadix, hdiv, hmod,
      digitChar_digitValue c hc, ih _ fun c hc => h c (List.mem_append_left _ hc)]
    simp

/-- An index is the number of its string (R196 (a)). -/
theorem diceIndex_diceString {i : Nat} (h : i < 7776) : diceIndex (diceString i) = i :=
  (diceIndex_diceLoop 5 i []).trans (Nat.mod_eq_of_lt h)

/-- A valid string is the string of its number (R196 (b)). -/
theorem diceString_diceIndex {cs : List Byte} (hlen : cs.length = 5) (h : ∀ c ∈ cs, isDiceChar c = true) :
    diceString (diceIndex cs) = cs := by
  have loop := diceLoop_diceIndex cs [] h
  rwa [hlen, List.append_nil] at loop

theorem isDiceChar_of_mem_diceString {i : Nat} : ∀ c ∈ diceString i, isDiceChar c = true := by
  have valid (n : Nat) : isDiceChar (digitChar (n % 6)) = true := isDiceChar_digitChar _ (Nat.mod_lt _ (by omega))
  simp [diceString_eq, valid]

/-! ### The two commands (R192 to R195) -/

theorem exec_d2i_of_valid (h : ∀ c ∈ diceChars s, isDiceChar c = true) :
    exec .d2i s = .next ({ s with idxOut := BitVec.ofNat 13 (diceIndex (diceChars s)) } : State).complete := by
  simp only [exec, execD2i, scanDice_eq_diceIndex h]

theorem exec_d2i_of_invalid {j : Nat} (hj : j < (diceChars s).length) (hbad : isDiceChar (diceChars s)[j] = false)
    (hbefore : ∀ i (_ : i < j), isDiceChar (diceChars s)[i] = true) :
    exec .d2i s = .next (s.raise .invalidDiceChar (BitVec.ofNat 8 j) (diceChars s)[j]) := by
  simp only [exec, execD2i, scanDice_invalid _ 0 0 j hj hbad hbefore, Nat.zero_add]

theorem exec_i2d_of_lt {imm16 : BitVec 16} {c0 c1 c2 c3 c4 : Byte} (hi : imm16.toNat < 7776)
    (hc : diceString imm16.toNat = [c0, c1, c2, c3, c4]) :
    exec (.i2d imm16) s =
      .next ({ s with diceOutLo := packLanes c0 c1 c2 c3, diceOutHi := c4 } : State).complete := by
  simp only [exec, execI2d, Config.diceSpace, Nat.not_le.mpr hi, if_false, hc]
  rfl

theorem exec_i2d_of_ge {imm16 : BitVec 16} (hi : 7776 ≤ imm16.toNat) :
    exec (.i2d imm16) s = .next (s.raise .indexRange 0 0) := by
  simp only [exec, execI2d, Config.diceSpace, hi, if_true]

/-- Character `j` by its lane: `DICE_IN_LO` has four, `DICE_IN_HI` the fifth (R31). -/
theorem diceChars_getElem {j : Nat} (hj : j < (diceChars s).length) :
    (diceChars s)[j] = if j < 4 then s.diceInLo.extractLsb' (8 * j) 8 else s.diceInHi.extractLsb' 0 8 := by
  have hj' : j < 5 := hj
  interval_cases j <;> rfl

/-- The number of the string by its place values (R191). -/
theorem diceIndex_five (c0 c1 c2 c3 c4 : Byte) : diceIndex [c0, c1, c2, c3, c4] =
    digitValue c0 * 1296 + digitValue c1 * 216 + digitValue c2 * 36 + digitValue c3 * 6 + digitValue c4 := by
  simp only [diceIndex, List.foldl_cons, List.foldl_nil]
  ring

/-- Settles O26: the scan gives the index of five valid characters, and stops at the first invalid one. -/
theorem d2iConvertsOrReportsTheFirstBadCharacter : Obligations.D2iConvertsOrReportsTheFirstBadCharacter := by
  intro s ch valid d x
  have char (j : Nat) (hj : j < 5) : (diceChars s)[j] = ch j := diceChars_getElem hj
  have isChar (j : Nat) (hj : j < 5) : isDiceChar (diceChars s)[j] = true ↔ valid (ch j) := by
    rw [char j hj]
    exact isDiceChar_iff _
  constructor
  · intro hvalid
    have hchars : ∀ c ∈ diceChars s, isDiceChar c = true :=
      List.forall_mem_iff_getElem.mpr fun j hj => (isChar j hj).mpr (hvalid j hj)
    have hx : diceIndex (diceChars s) = x := diceIndex_five _ _ _ _ _
    have hlt := diceIndex_lt (scanDice_eq_diceIndex hchars)
    refine ⟨by omega, ?_⟩
    rw [← hx]
    exact exec_d2i_of_valid hchars
  · intro j hj hbad hbefore
    rw [exec_d2i_of_invalid hj (by rwa [← Bool.not_eq_true, isChar j hj])
      fun i hi => (isChar i (hi.trans hj)).mpr (hbefore i hi), char j hj]
    rfl

/-- Settles O27: the five base-6 digits of the index, or the range error. -/
theorem i2dConvertsOrReportsTheRange : Obligations.I2dConvertsOrReportsTheRange := by
  intro s imm16 i out
  refine ⟨fun hi => ?_, exec_i2d_of_ge⟩
  have hchars : diceString i = [out 0, out 1, out 2, out 3, out 4] := by
    rw [diceString_eq]
    simp [out, digitChar, Config.charOne]
  exact exec_i2d_of_lt hi hchars

/-- Settles O29: the maps evaluated at both ends of the range. -/
theorem diceCodecBoundaryValues : Obligations.DiceCodecBoundaryValues :=
  ⟨⟨_, exec_d2i_of_valid (by decide), by decide⟩, ⟨_, exec_d2i_of_valid (by decide), by decide⟩,
    ⟨_, exec_i2d_of_lt (by decide) (diceString_eq _), by decide, by decide⟩,
    ⟨_, exec_i2d_of_lt (by decide) (diceString_eq _), by decide, by decide⟩, decodeWord_encode (.i2d 7775)⟩

/-! ### Two accepted commands (R196) -/

/-- The state in which a command written at rest is dispatched, with nothing else to come (R65). -/
def dispatching (i : Instr) (s : State) : State := (State.accept (encode i) { s with agenda := [] }).answer .ok

/-- A command written at rest is accepted and dispatched: two steps. -/
theorem runFor_command {i : Instr} (hp : s.phase = .idle) (ha : s.agenda = [.write 0x000 4 (encode i)])
    (h : exec i (dispatching i s) = .next t) : runFor 2 s = .next t := by
  have accept : step s = .next (dispatching i s) := step_write_accepted ha hp (regAt_addr .cmd) rfl
  have dispatch : step (dispatching i s) = .next t :=
    (step_nil rfl).trans ((coreStep_of_dispatch (s := dispatching i s) rfl (decodeWord_encode i)).trans h)
  exact (runFor_next accept).trans (runFor_next dispatch)

/-- A command has ended without error: at rest again, with `DONE` alone in `STATUS` (R22, R238). -/
structure Succeeded (t : State) : Prop where
  idle : t.phase = .idle
  status : t.readReg .status = 0x00000002

theorem succeeded_complete (h : s.errCode = .none) : Succeeded s.complete where
  idle := rfl
  status := by
    apply BitVec.eq_of_toNat_eq
    simp [State.readReg, statusWord_toNat, h, ErrCode.code]

/-- An index fits the 13 bits of `IDX_OUT` (R29, R191). -/
theorem readReg_idxOut_toNat {x : Nat} (hx : x < 7776) (h : t.idxOut = BitVec.ofNat 13 x) :
    (t.readReg .idxOut).toNat = x := by
  simp only [State.readReg, h, BitVec.toNat_setWidth, BitVec.toNat_ofNat]
  omega

theorem runFor_d2i (hp : s.phase = .idle) (ha : s.agenda = [.write 0x000 4 (encode .d2i)])
    (h : ∀ c ∈ diceChars s, isDiceChar c = true) :
    ∃ t, runFor 2 s = .next t ∧ Succeeded t ∧ (t.readReg .idxOut).toNat = diceIndex (diceChars s) :=
  ⟨_, runFor_command hp ha (exec_d2i_of_valid h), succeeded_complete rfl,
    readReg_idxOut_toNat (diceIndex_lt (scanDice_eq_diceIndex h)) rfl⟩

theorem runFor_i2d {imm16 : BitVec 16} {c0 c1 c2 c3 c4 : Byte} (hp : s.phase = .idle)
    (ha : s.agenda = [.write 0x000 4 (encode (.i2d imm16))]) (hi : imm16.toNat < 7776)
    (hc : diceString imm16.toNat = [c0, c1, c2, c3, c4]) :
    ∃ t, runFor 2 s = .next t ∧ Succeeded t ∧ t.diceOutLo = packLanes c0 c1 c2 c3 ∧ t.diceOutHi = c4 :=
  ⟨_, runFor_command hp ha (exec_i2d_of_lt hi hc), succeeded_complete rfl, rfl, rfl⟩

/-- The two writes of `LDDICE` at rest, whatever comes after them (R100). -/
theorem runFor_lddice {c0 c1 c2 c3 c4 : Byte} {rest : List AgentAction} (hp : s.phase = .idle)
    (ha : s.agenda = scriptLddice c0 c1 c2 c3 c4 ++ rest) :
    ∃ t, runFor 2 s = .next t ∧ t.phase = .idle ∧ t.agenda = rest ∧ diceChars t = [c0, c1, c2, c3, c4] := by
  have low := (operandWritesStoreTheWord s _ _ _ hp ha).1 rfl
  have high := (operandWritesStoreTheWord { s with
    agenda := scriptWr 0x024 (c4.setWidth 32) ++ rest, response := some .ok, diceInLo := packLanes c0 c1 c2 c3 }
    _ _ rest hp rfl).2.1 rfl
  exact ⟨_, (runFor_next low).trans (runFor_next high), hp, rfl, diceChars_packLanes rfl rfl⟩

/-- Settles O28: what the host carries over is the string or the index that the second command turns back. -/
theorem diceCodecRoundTrip : Obligations.DiceCodecRoundTrip := by
  constructor
  · intro s imm16 hi hp ha
    have hstring := diceString_eq imm16.toNat
    obtain ⟨t, run1, ht, hlo, hhi⟩ := runFor_i2d hp ha hi hstring
    obtain ⟨t', run2, idle, order, hchars⟩ := runFor_lddice (rest := [.write 0x000 4 (encode .d2i)])
      (s := { t with agenda := [.write 0x020 4 (t.readReg .diceOutLo), .write 0x024 4 (t.readReg .diceOutHi),
        .write 0x000 4 (encode .d2i)] }) ht.idle (by simp only [State.readReg, hlo, hhi]; rfl)
    rw [← hstring] at hchars
    obtain ⟨u, run3, hu, hidx⟩ := runFor_d2i idle order (hchars ▸ isDiceChar_of_mem_diceString)
    refine ⟨t, u, run1, (runFor_add run2).trans run3, hu.status, ?_⟩
    rw [hchars, diceIndex_diceString hi] at hidx
    exact BitVec.eq_of_toNat_eq (hidx.trans (BitVec.toNat_setWidth_of_le (by omega)).symm)
  · intro s hvalid hp ha
    have hchars : ∀ c ∈ diceChars s, isDiceChar c = true := fun c hc => (isDiceChar_iff c).mpr (hvalid c hc)
    have hlt := diceIndex_lt (scanDice_eq_diceIndex hchars)
    obtain ⟨t, run1, ht, hidx⟩ := runFor_d2i hp ha hchars
    have himm : ((t.readReg .idxOut).setWidth 16).toNat = diceIndex (diceChars s) := by
      rw [BitVec.toNat_setWidth, hidx]
      omega
    have hstring := diceString_diceIndex rfl hchars
    rw [← himm] at hlt hstring
    obtain ⟨u, run2, hu, hlo, hhi⟩ := runFor_i2d
      (s := { t with agenda := [.write 0x000 4 (encode (.i2d ((t.readReg .idxOut).setWidth 16)))] })
      ht.idle rfl hlt hstring
    exact ⟨t, u, run1, run2, hu.status, hlo.trans (packLanes_lane _), congrArg (BitVec.setWidth 32) hhi⟩

/-! ### The host's cutoff (R198) -/

theorem rollWordIndex_eq_some_iff {x k : Nat} : rollWordIndex x = some k ↔ x < 6144 ∧ x % 2048 = k := by
  unfold rollWordIndex Config.cutoff Config.wordlistSize
  split_ifs with h <;> simp [h]

theorem rollWordIndex_of_ge {x : Nat} (h : 6144 ≤ x) : rollWordIndex x = none := if_neg (Nat.not_lt.mpr h)

/-- Below the cutoff a roll counts for its residue, so three blocks of 2048 give each WordIndex once. -/
theorem count_rollWordIndex_below {k : Nat} (hk : k < 2048) :
    Nat.count (fun x => rollWordIndex x = some k) 6144 = 3 := by
  have residue : ∀ x < 6144, (rollWordIndex x = some k ↔ x ≡ k [MOD 2048]) := fun x hx => by
    rw [rollWordIndex_eq_some_iff, Nat.ModEq, Nat.mod_eq_of_lt hk]
    simp [hx]
  calc Nat.count (fun x => rollWordIndex x = some k) 6144
      = Nat.count (· ≡ k [MOD 2048]) 6144 := by
        rw [Nat.count_eq_card_filter_range, Nat.count_eq_card_filter_range]
        exact congrArg Finset.card (Finset.filter_congr fun x hx => residue x (Finset.mem_range.mp hx))
    _ = 3 := by simp [Nat.count_modEq_card]

/-- Settles O30: the rolls below the cutoff are three whole blocks, and from there on none is accepted. -/
theorem acceptedRollsAreUnbiased : Obligations.AcceptedRollsAreUnbiased := by
  refine ⟨fun k hk => ?_, fun x hx => rollWordIndex_of_ge hx⟩
  have counted : (List.range 7776).countP (fun x => rollWordIndex x == some k) =
      Nat.count (fun x => rollWordIndex x = some k) (6144 + 1632) := List.countP_congr fun x _ => by simp
  have above : Nat.count (fun x => rollWordIndex (6144 + x) = some k) 1632 = 0 :=
    Nat.count_iff_forall_not.mpr fun x _ => by simp [rollWordIndex_of_ge (Nat.le_add_right 6144 x)]
  rw [counted, Nat.count_add, count_rollWordIndex_below hk, above]

end Sys2Proof.Machine
end

section
/-! PROOFS, `44_control.md`. `CLR` and the words that are no command. -/

namespace Sys2Proof.Machine

variable {s : State}

/-! ### `CLR` (R210) -/

theorem exec_clr (s : State) : exec .clr s = .next s.clearCore := rfl

/-- Settles O24: `CLR` is the return to the reset state, whose definition is the state the rule asks for. -/
theorem clrRestoresTheResetState : Obligations.ClrRestoresTheResetState := exec_clr

/-! ### A word that is no command (R211) -/

/-- The core running alone: the dispatch step of such a word (R91, R234). -/
theorem step_of_dispatch_illegal {why : IllegalWord} (ha : s.agenda = []) (hp : s.phase = .dispatch)
    (hd : decodeWord s.cmd = .illegal why) : step s = .next (s.raise .illegalCmd 0 0) := by
  rw [step_nil ha]
  simp only [coreStep, hp, dispatchStep, hd]

/-- A command that ended with an error leaves `ERR` and `DONE` beside its `ERRCODE` in `STATUS` (R22, R237). -/
theorem readReg_status_raise_toNat {e : ErrCode} (he : e ≠ .none) (pos val : Byte) :
    ((s.raise e pos val).readReg .status).toNat = e.code.toNat * 16 + 6 := by
  simp [State.readReg, statusWord_toNat, he]

/-- Settles O25: the acceptance clears the results of the command before, and the dispatch step raises the error. -/
theorem illegalWordEndsInError : Obligations.IllegalWordEndsInError := by
  intro s c why hp ha hd
  have accept := commandAcceptance s c [] hp ha
  refine ⟨_, (runFor_next accept).trans (runFor_next (step_of_dispatch_illegal rfl rfl hd)), ?_, rfl⟩
  exact BitVec.eq_of_toNat_eq (readReg_status_raise_toNat (by decide) 0 0)

end Sys2Proof.Machine
end

section
/-! PROOFS, `45_sha256_reference.md`. The check values of `SHA256`. -/

namespace Sys2Proof.Machine

/-- Settles O50: `SHA256` is a concrete function that computes (R221 to R226), so each of the five digests is its value
on one closed message. The kernel evaluates it: the elaborator's own reduction stops at its recursion limit. -/
theorem sha256CheckValues : Obligations.Sha256CheckValues := by
  refine ⟨?empty, ?abc, ?zeros16, ?zeros32, ?ones16⟩ <;> decide +kernel

end Sys2Proof.Machine
end

section
/-! PROOFS, `60_exceptions.md`. Where the command errors come from: each core step that changes `ERRCODE` to an error
is a dispatch step that meets the condition of the error's row. -/

namespace Sys2Proof.Machine

variable {s t : State} {L : MnemonicLength} {n : Byte}

/-! ### The conditions of the rows (R230) -/

/-- The condition under which a dispatch step raises an error, row by row (R230). -/
def RaiseCondition (s : State) : ErrCode → Prop
  | .none => False
  | .illegalCmd => ∃ why, decodeWord s.cmd = .illegal why
  | .lengthMismatch => ∃ L n, decodeWord s.cmd = .legal (Instr.solve L n) ∧ n.toNat ≠ L.words - 1
  | .invalidWord => ∃ L n, decodeWord s.cmd = .legal (Instr.solve L n) ∧ n.toNat = L.words - 1 ∧
      ∃ w ∈ knownWords L s, 2048 ≤ w.toNat
  | .invalidDiceChar => decodeWord s.cmd = .legal .d2i ∧ ∃ c ∈ diceChars s, c.toNat < 0x31 ∨ 0x36 < c.toNat
  | .indexRange => ∃ i, decodeWord s.cmd = .legal (.i2d i) ∧ 7776 ≤ i.toNat

/-- The step leaves `ERRCODE` as it is, or without an error. -/
def RaisesNothing (s t : State) : Prop := t.errCode = s.errCode ∨ t.errCode = .none

/-- The step is a dispatch step that ends its command with an error, under the condition of the error's row. -/
structure RaisesItsError (s t : State) : Prop where
  dispatching : s.phase = .dispatch
  ended : t.phase = .idle
  condition : RaiseCondition s t.errCode

theorem exists_notFound_of_firstNotFound {ws : List Word} {k : Nat} (h : firstNotFound ws = some k) :
    ∃ w ∈ ws, 2048 ≤ w.toNat := by
  obtain ⟨hk, hbad, -⟩ := firstNotFound_some.mp h
  exact ⟨ws[k], List.getElem_mem hk, hbad⟩

theorem not_isDiceChar_iff (c : Byte) : ¬ isDiceChar c = true ↔ c.toNat < 0x31 ∨ 0x36 < c.toNat := by
  rw [isDiceChar_iff]
  omega

/-- A scan that stops has met an invalid character: without one it gives an index (R192, R193). -/
theorem exists_invalid_of_scanDice {cs : List Byte} {pos : Nat} {c : Byte} (h : scanDice 0 0 cs = .invalid pos c) :
    ∃ c ∈ cs, c.toNat < 0x31 ∨ 0x36 < c.toNat := by
  simp only [← not_isDiceChar_iff]
  by_contra hvalid
  have index := scanDice_eq_diceIndex (cs := cs) (by simpa using hvalid)
  cases index.symm.trans h

/-! ### What each action does to `ERRCODE` -/

/-- Both errors of a `SOLVE` come from the checks of its dispatch step (R121, R122). -/
theorem solveDispatch_raises (hp : s.phase = .dispatch) (hd : decodeWord s.cmd = .legal (Instr.solve L n)) :
    RaisesNothing s (solveDispatch L n s) ∨ RaisesItsError s (solveDispatch L n s) := by
  rcases solveDispatch_cases L n s with ⟨hn, e⟩ | ⟨hn, k, hk, e⟩ | ⟨-, -, e⟩ <;> rw [e]
  · exact .inr ⟨hp, rfl, L, n, hd, hn⟩
  · exact .inr ⟨hp, rfl, L, n, hd, hn, exists_notFound_of_firstNotFound hk⟩
  · exact .inl (.inl rfl)

/-- Every error of the core's turn comes from a dispatch step (R230, R237). -/
theorem coreStep_raises (h : coreStep s = .next t) : RaisesNothing s t ∨ RaisesItsError s t := by
  rcases coreStep_cases h with ⟨-, rfl⟩ | ⟨-, L, n, -, -, rfl⟩ | ⟨hp, dispatched⟩
  · exact .inl (.inl rfl)
  · obtain ⟨-, same, -⟩ := iterate_frame L s
    exact .inl (.inl same)
  · rcases dispatched with ⟨why, hd, rfl⟩ | ⟨L, n, hd, rfl⟩ | ⟨hd, d2i⟩ | ⟨x, hd, i2d⟩ | ⟨-, rfl⟩
    · exact .inr ⟨hp, rfl, why, hd⟩
    · exact solveDispatch_raises hp hd
    · rcases d2i with ⟨x, -, rfl⟩ | ⟨pos, c, hscan, rfl⟩
      · exact .inl (.inl rfl)
      · exact .inr ⟨hp, rfl, hd, exists_invalid_of_scanDice hscan⟩
    · rcases i2d with ⟨hx, rfl⟩ | ⟨-, lo, hi, rfl⟩
      · exact .inr ⟨hp, rfl, x, hd, hx⟩
      · exact .inl (.inl rfl)
    · exact .inl (.inr rfl)

/-- A write at rest keeps `ERRCODE`, or it is the acceptance of a command, which clears it (R64, R65). -/
theorem writeReg_raisesNothing (s : State) (r : Reg) (v : Word) : RaisesNothing s (s.writeReg r v) := by
  cases r with
  | cmd => exact .inr rfl
  | _ => exact .inl rfl

/-- Every error of a step comes from the core's turn: a transaction keeps or clears `ERRCODE`, and reset clears it
(R240, R270). -/
theorem step_raises (h : step s = .next t) : RaisesNothing s t ∨ (CoreTurn s ∧ RaisesItsError s t) := by
  rcases step_cases h with ⟨turn, hc⟩ | ⟨p, d, rfl⟩ | ⟨addr, v, rest, r, -, -, -, -, rfl⟩ | ⟨rest, -, rfl⟩
  · rcases coreStep_raises hc with nothing | ⟨hp, ended, condition⟩
    · exact .inl nothing
    · exact .inr ⟨turn, hp, ended, condition⟩
  · exact .inl (.inl rfl)
  · exact .inl (writeReg_raisesNothing { s with agenda := rest } r v)
  · exact .inl (.inr rfl)

/-- Settles O59: the step raised its error in the core's turn, and each code names its own condition. -/
theorem errorsComeFromTheirCauses : Obligations.ErrorsComeFromTheirCauses := by
  intro s t h changed he
  rcases step_raises h with same | ⟨turn, hp, ended, condition⟩
  · rcases same with e | e
    exacts [absurd e changed, absurd e he]
  · have named {e : ErrCode} (code : t.errCode = e) : RaiseCondition s e := code ▸ condition
    exact ⟨hp, turn, ended, named, named, named, named, named⟩

end Sys2Proof.Machine
end

section
/-! PROOFS, `70_reset_and_hazards.md`. Reset, and why every run ends: each action takes itself off the agenda, and each
turn of a busy core leaves it fewer turns to come. -/

namespace Sys2Proof.Machine

variable {s t : State}

/-! ### Reset (R270, R271) -/

/-- Settles O22: reset is the return to the reset state, whose definition is the state the rule asks for. -/
theorem resetReplacesTheWholeState : Obligations.ResetReplacesTheWholeState :=
  fun _ _ ha => step_reset ha

/-! ### Where the dispatch step leads (R281, R282) -/

/-- The dispatch step ends its command, unless it is that of a `SOLVE`, which may go on iterating (R34). -/
theorem coreStep_phase_of_dispatch (hp : s.phase = .dispatch) (h : coreStep s = .next t) :
    t.phase = .idle ∨ (t.phase = .iter ∧ ∃ L n, decodeWord s.cmd = .legal (Instr.solve L n)) := by
  rcases coreStep_cases h with ⟨idle, -⟩ | ⟨iter, -⟩ | ⟨-, dispatched⟩
  · cases hp.symm.trans idle
  · cases hp.symm.trans iter
  · rcases dispatched with ⟨why, -, rfl⟩ | ⟨L, n, hd, rfl⟩ | ⟨-, d2i⟩ | ⟨x, -, i2d⟩ | ⟨-, rfl⟩
    · exact .inl rfl
    · rcases solveDispatch_cases L n s with ⟨-, e⟩ | ⟨-, k, -, e⟩ | ⟨-, -, e⟩ <;> rw [e]
      · exact .inl rfl
      · exact .inl rfl
      · exact .inr ⟨rfl, L, n, hd⟩
    · rcases d2i with ⟨x, -, rfl⟩ | ⟨pos, c, -, rfl⟩ <;> exact .inl rfl
    · rcases i2d with ⟨-, rfl⟩ | ⟨-, lo, hi, rfl⟩ <;> exact .inl rfl
    · exact .inl rfl

/-- On the core's turn a step is its turn, with that turn taken off the agenda (R70). -/
theorem CoreTurn.step_eq (turn : CoreTurn s) : step s = coreStep { s with agenda := s.agenda.tail } := by
  rcases turn with ha | ⟨rest, ha⟩
  · have same : ({ s with agenda := s.agenda.tail } : State) = s := by rw [ha, List.tail_nil, ← ha]
    rw [step_nil ha, same]
  · rw [step_core ha, ha, List.tail_cons]

/-- Settles O55: every word has its dispatch step, and only that of a `SOLVE` does not end in `IDLE`. -/
theorem otherCommandsEndInOneStep : Obligations.OtherCommandsEndInOneStep := by
  intro s hp turn hother
  obtain ⟨t, ht⟩ := coreStep_next_of_dispatch (s := { s with agenda := s.agenda.tail }) hp
  refine ⟨t, turn.step_eq.trans ht, ?_⟩
  rcases coreStep_phase_of_dispatch (s := { s with agenda := s.agenda.tail }) hp ht with ended | ⟨-, L, n, hd⟩
  · exact ended
  · exact absurd hd (hother L n)

/-! ### How many turns a run has at most (R280, R281) -/

/-- A bound on the core steps before the core is idle, whatever word is in `CMD`: those of a `SOLVE.12`, which has the
most nonces. -/
def coreStepsBound (s : State) : Nat := coreStepsLeft .w12 s

theorem coreStepsBound_idle (hp : s.phase = .idle) : coreStepsBound s = 0 := by
  simp only [coreStepsBound, coreStepsLeft, hp]

theorem coreStepsBound_dispatch (hp : s.phase = .dispatch) : coreStepsBound s = 129 := by
  simp only [coreStepsBound, coreStepsLeft, hp]
  rfl

theorem coreStepsBound_iter (hp : s.phase = .iter) : coreStepsBound s = 128 - s.nonce.toNat := by
  simp only [coreStepsBound, coreStepsLeft, hp]
  rfl

theorem coreStepsBound_le (s : State) : coreStepsBound s ≤ 129 := by
  cases hp : s.phase with
  | idle => rw [coreStepsBound_idle hp]; omega
  | dispatch => rw [coreStepsBound_dispatch hp]
  | iter => rw [coreStepsBound_iter hp]; omega

/-- With the invariant only an idle core has no step left: a `SOLVE` that iterates has a nonce to come (R124). -/
theorem Inv.idle_of_coreStepsBound (inv : Inv s) (h : coreStepsBound s = 0) : s.phase = .idle := by
  cases hp : s.phase with
  | idle => rfl
  | dispatch => rw [coreStepsBound_dispatch hp] at h; omega
  | iter =>
    obtain ⟨L, it⟩ := inv.iterating hp
    have hin := it.inRange.trans_le (count_le L)
    rw [coreStepsBound_iter hp] at h
    omega

/-- An iteration takes the next nonce, or it is the last and ends the run (R124, R125). -/
theorem coreStepsBound_iterate {L : MnemonicLength} (hp : s.phase = .iter) (hin : s.nonce.toNat < L.count) :
    coreStepsBound (iterate L s) ≤ coreStepsBound s - 1 := by
  by_cases hlast : s.nonce.toNat + 1 = L.count
  · rw [iterate_of_eq L s hlast]
    exact (coreStepsBound_idle rfl).trans_le (Nat.zero_le _)
  · have hiter : (iterate L s).phase = .iter := by rw [iterate_of_ne L s hlast]; exact hp
    have hnonce : (iterate L s).nonce.toNat = s.nonce.toNat + 1 := by
      rw [iterate_of_ne L s hlast]; exact byte_toNat_of_le (hin.trans_le (count_le L))
    rw [coreStepsBound_iter hp, coreStepsBound_iter hiter, hnonce]
    omega

/-- Every turn of a core that is not idle brings it nearer to the end (R281). -/
theorem coreStepsBound_coreStep (h : coreStep s = .next t) : coreStepsBound t ≤ coreStepsBound s - 1 := by
  rcases coreStep_cases h with ⟨hp, rfl⟩ | ⟨hp, L, n, -, hin, rfl⟩ | ⟨hp, -⟩
  · exact (coreStepsBound_idle hp).trans_le (Nat.zero_le _)
  · exact coreStepsBound_iterate hp hin
  · rw [coreStepsBound_dispatch hp]
    rcases coreStep_phase_of_dispatch hp h with idle | ⟨iter, -⟩
    · exact (coreStepsBound_idle idle).trans_le (Nat.zero_le _)
    · rw [coreStepsBound_iter iter]
      omega

/-! ### Runs to the end (R280) -/

/-- A step takes the next action, if there is one, off the agenda (R70). -/
theorem step_agenda (h : step s = .next t) : t.agenda = s.agenda.tail := by
  rcases step_cases h with ⟨-, hc⟩ | ⟨p, d, rfl⟩ | ⟨addr, v, rest, r, ha, -, -, -, rfl⟩ | ⟨rest, ha, rfl⟩
  · obtain ⟨hagenda, -⟩ := coreStep_port hc
    exact hagenda
  · rfl
  · rw [ha]
    cases r <;> rfl
  · rw [ha]
    rfl

/-- The actions of the agenda are taken one by one without a fault, and the core is then left alone. -/
theorem Inv.runFor_agenda (inv : Inv s) : ∃ t, runFor s.agenda.length s = .next t ∧ Inv t ∧ t.agenda = [] := by
  induction hlen : s.agenda.length generalizing s with
  | zero => exact ⟨s, rfl, inv, List.length_eq_zero_iff.mp hlen⟩
  | succ k ih =>
    obtain ⟨t, ht⟩ := inv.step_next
    have hshort : t.agenda.length = k := by rw [step_agenda ht, List.length_tail, hlen, Nat.add_sub_cancel]
    obtain ⟨u, hrun, hu⟩ := ih (everyStepKeepsTheInvariant s t inv ht) hshort
    exact ⟨u, (runFor_next ht).trans hrun, hu⟩

/-- A core left alone is idle after as many steps as the bound, and stays so: by induction on the steps (R280). -/
theorem Inv.runFor_alone (k : Nat) (inv : Inv s) (ha : s.agenda = []) (hk : coreStepsBound s ≤ k) :
    ∃ t, runFor k s = .next t ∧ t.phase = .idle ∧ t.agenda = [] := by
  induction k generalizing s with
  | zero => exact ⟨s, rfl, inv.idle_of_coreStepsBound (Nat.le_zero.mp hk), ha⟩
  | succ k ih =>
    obtain ⟨t, ht⟩ := inv.coreStep_next
    obtain ⟨hagenda, -⟩ := coreStep_port ht
    have hless := coreStepsBound_coreStep ht
    obtain ⟨u, hrun, hu⟩ := ih (inv.coreStep ht) (hagenda.trans ha) (by omega)
    exact ⟨u, (runFor_next ((step_nil ha).trans ht)).trans hrun, hu⟩

/-- Settles O54: the actions of the agenda first, and then no more turns of the core than the bound. -/
theorem everyRunEnds : Obligations.EveryRunEnds := by
  intro s inv
  obtain ⟨t, hrun, ht, ha⟩ := inv.runFor_agenda
  obtain ⟨u, hend, hu⟩ := ht.runFor_alone 129 ha (coreStepsBound_le t)
  exact ⟨u, (runFor_add hrun).trans hend, hu⟩

end Sys2Proof.Machine
end
